-- ==== Sys2Proof/Word.lean ====
section
/-! DEFINITION. The two widths of the machine (spec/00_scope.md R2, R7): the byte, which is a memory cell, and the
word, which is a register. Nothing in the machine is signed. -/

namespace Sys2Proof

/-- An 8-bit memory cell (R2). -/
abbrev Byte := BitVec 8

/-- A 16-bit register value, unsigned (R2, R13). -/
abbrev Word := BitVec 16

/-- `trunc16(n)` of R7: `n mod 65536`. -/
def trunc16 (n : Nat) : Word := BitVec.ofNat 16 n

end Sys2Proof
end

