-- ==== Sys2Proof/Config.lean ====
section
/-! DEFINITION. The implementation parameters of spec/00_scope.md section 4. `NGPR` and `MEMSIZE` are OPEN (R3, R4): a
machine holds its own values of them (State.ngpr and Memory.cap of Machine/State.lean), no step changes them, and every
statement is for every value. Only the machine that State.reset names takes the reference values below (log entry 1).
The spec leaves no value free (spec/93_implementation_defined.md section 1), so this file holds no free value. -/

namespace Sys2Proof.Config

/-- The constraint of R3 on the number of general-purpose registers: `r1` and `r2` exist, and every register index fits
one operand byte. -/
abbrev LegalNgpr (ngpr : Nat) : Prop := 2 ≤ ngpr ∧ ngpr ≤ 254

/-- `NREG = NGPR + 2` (R3): `ip`, `acc` and the general-purpose registers. -/
def nregOf (ngpr : Nat) : Nat := ngpr + 2

/-- PRESUMED (unsafe, log entry 1): the reference value of `NGPR`, which the spec marks as general knowledge (93 G1). -/
def referenceNgpr : Nat := 8

/-- PRESUMED (unsafe, log entry 1): the reference value of `MEMSIZE`, which the spec marks as general knowledge (93 G2). -/
def referenceMemSize : Nat := 256

end Sys2Proof.Config
end

