-- ==== Sys2Proof/Machine/State.lean ====
section
/-! DEFINITION. The state of the machine (spec/10_state.md): the memory MEM, the register-file backing memory RF, the
run-status latch, and the parameter NGPR. There is no other state (10_state.md section 1, R21, R22, R24). -/

namespace Sys2Proof.Machine

/-! Faults as the spec has them: records kept in the status latch (spec/60_exceptions.md R100, R101). -/

/-- The width of a memory access (spec/20_memory.md R40). -/
inductive Width where
  | byte | word
  deriving DecidableEq, Repr

/-- Which operand byte of ADD_REG_REG named a register: `k = 1` or `k = 2` in R101. -/
inductive OperandPos where
  | first | second
  deriving DecidableEq, Repr

/-- The causes of R100 with the records of R101. -/
inductive Cause where
  /-- The range of `n` bytes from `a` is not inside the memory. -/
  | memOutOfBounds (a : Nat) (n : Width)
  /-- `name` is none of the register names; only the host's get and set raise it (R106). -/
  | unknownRegisterName (name : String)
  /-- No register has index `i`, the operand byte at position `k`. -/
  | regIndexOutOfRange (i : Byte) (k : OperandPos)
  /-- `opc`, fetched from `addr`, is no defined opcode. -/
  | illegalOpcode (opc : Byte) (addr : Word)
  deriving DecidableEq, Repr

/-- The run-status latch (10_state.md R20). -/
inductive Status where
  | running
  | faulted (cause : Cause)
  deriving DecidableEq, Repr

/-! The Memory component (spec/20_memory.md R30). -/

/-- A buffer of `cap` bytes. The cells list the nonzero bytes by rising address; an address that is not listed holds
0x00, which is what a new buffer holds (R30). -/
structure Memory where
  cap : Nat
  cells : List Host.Cell
  deriving DecidableEq, Repr

/-- A new buffer, "all zero at creation" (R30; spec/43_host_interface.md R90). -/
def Memory.create (cap : Nat) : Memory := { cap := cap, cells := [] }

/-- The cells stand in canonical form from address `lo` up to, not including, `cap`. -/
def cellsWf (cap : Nat) : Nat → List Host.Cell → Bool
  | _, [] => true
  | lo, (a, b) :: rest => decide (lo ≤ a) && decide (a < cap) && decide (b ≠ 0#8) && cellsWf cap (a + 1) rest

/-- Canonical form: addresses strictly rising and inside the buffer, no byte listed that is 0x00. -/
def Memory.wf (m : Memory) : Bool := cellsWf m.cap 0 m.cells

/-! The state. -/

/-- The architectural state (10_state.md section 1). -/
structure State where
  /-- The parameter `NGPR` of this machine (spec/00_scope.md R3); nothing changes it. -/
  ngpr : Nat
  /-- `MEM`, the program and data memory; its `cap` is the parameter `MEMSIZE` (R4, 10_state.md R23). -/
  mem : Memory
  /-- `RF`, the register-file backing memory of `2 * NREG` bytes (R5, 10_state.md R12). -/
  rf : Memory
  /-- The run-status latch (10_state.md R20). -/
  status : Status
  deriving DecidableEq, Repr

/-- Why the machine stops in a state that is no state of the spec's machine. The spec's own faults are NOT here: raising
one is a next state, with the status latch set (60_exceptions.md R105; log entry 2). -/
inductive Fault where
  /-- Raised by the register accessors (Ops: rfRead, rfWrite) when `RF` has no bytes at `off`, that is when `RF` is
  shorter than `2 * NREG` bytes. Safe: no state that meets State.Inv raises it (R103; log entry 3). -/
  | registerFileOutOfBounds (off : Nat)
  deriving DecidableEq, Repr

/-- Why a step gives no next state. -/
inductive Refusal where
  /-- Raised by an arm of exec whose instruction has no meaning yet. Safe. No arm raises it. -/
  | notModelled (mnemonic : String)
  /-- Raised by step on a machine that has faulted: "refuse -- no state change at all" (spec/40_fetch_decode.md R67,
  60_exceptions.md R108). The standing cause comes with it. Safe: it is the spec's own refusal (log entry 4). -/
  | alreadyFaulted (cause : Cause)
  deriving DecidableEq, Repr

/-! Reset (10_state.md R28; spec/70_reset_and_hazards.md R120, R121). -/

/-- Construct CPU, the machine's reset (R120): a zero register file and a running status over the memory given, which
it leaves as it is. -/
def State.construct (ngpr : Nat) (mem : Memory) : State :=
  { ngpr := ngpr, mem := mem, rf := Memory.create (2 * Config.nregOf ngpr), status := .running }

/-- Power-on (R121): create the memory, then construct the CPU over it. -/
def State.powerOn (ngpr memSize : Nat) : State := State.construct ngpr (Memory.create memSize)

/-- The machine right after power-on with nothing preloaded, at the reference values of the two open parameters
(PRESUMED, unsafe, log entry 1). -/
def State.reset : State := State.powerOn Config.referenceNgpr Config.referenceMemSize

end Sys2Proof.Machine
end

