-- ==== Sys2Proof/Machine/Flags.lean ====
section
/-! DEFINITION. The ALU (spec/42_add.md R87). The machine has no flags (spec/10_state.md R21): the sum is the adder's
whole result, and its carry is recorded nowhere. -/

namespace Sys2Proof.Machine

/-- `a +16 b`: the exact sum, narrowed to 16 bits (R87). -/
def addWrap (a b : Word) : Word := trunc16 (a.toNat + b.toNat)

end Sys2Proof.Machine
end

