-- ==== Sys2Proof/Syntax.lean ====
section
/-! DEFINITION. The three instructions of the 16BitJSVM base set (spec/30_encoding.md R56), one constructor per row of
spec/opcode_table.json. The destinations are fixed by the opcode and are no operand (R51, R52, R61). -/

namespace Sys2Proof

/-- An instruction with its operands as they stand in its bytes. -/
inductive Instr where
  /-- MOV_LIT_R1, 0x10, format L (R51, R54): load `lit` into `r1` (spec/41_move_literal.md R80). -/
  | movLitR1 (lit : Word)
  /-- MOV_LIT_R2, 0x11, format L (R51, R54): load `lit` into `r2` (R81). -/
  | movLitR2 (lit : Word)
  /-- ADD_REG_REG, 0x12, format RR (R52, R55): the registers with raw indices `ra` and `rb`, summed into `acc`
  (spec/42_add.md R85). -/
  | addRegReg (ra rb : Byte)
  deriving DecidableEq, Repr

end Sys2Proof
end

