-- ==== Sys2Proof/WellFormed.lean ====
section
/-! DEFINITION. When the operands of an instruction are legal on a machine of `nreg` registers. -/

namespace Sys2Proof

/-- R54: every literal is legal. R55: an index byte is legal when it is less than `NREG`; a greater one can be encoded
and decoded, and raises RegIndexOutOfRange when it executes. -/
def Instr.wellFormed (nreg : Nat) : Instr → Bool
  | .movLitR1 _ => true
  | .movLitR2 _ => true
  | .addRegReg ra rb => decide (ra.toNat < nreg) && decide (rb.toNat < nreg)

end Sys2Proof
end

