-- ==== Sys2Proof/Decode.lean ====
section
/-! DEFINITION. The instruction encoding of spec/30_encoding.md: byte order, the opcode map, the decoder and the
encoder. The decoder looks at the whole first byte (R53) and tells the operands' shape from it alone (R50, R60). -/

namespace Sys2Proof

/-! Byte order (spec/00_scope.md R7, spec/20_memory.md R35). -/

/-- `hi :: lo` of R7: the word `hi * 256 + lo`. -/
def joinBytes (hi lo : Byte) : Word := hi ++ lo

/-- `w[15:8]`. -/
def hiByte (w : Word) : Byte := w.extractLsb' 8 8

/-- `w[7:0]`. -/
def loByte (w : Word) : Byte := w.extractLsb' 0 8

/-! The opcode map (R56). -/

/-- The defined opcodes, by the mnemonics of R56. -/
inductive Opcode where
  | movLitR1 | movLitR2 | addRegReg
  deriving DecidableEq, Repr

/-- The opcode a byte stands for; `none` for the 253 reserved bytes (R56, R58). -/
def opcodeOfByte (b : Byte) : Option Opcode :=
  if b = 0x10#8 then some .movLitR1
  else if b = 0x11#8 then some .movLitR2
  else if b = 0x12#8 then some .addRegReg
  else none

/-- The byte of an opcode (R56). -/
def byteOfOpcode : Opcode → Byte
  | .movLitR1 => 0x10#8
  | .movLitR2 => 0x11#8
  | .addRegReg => 0x12#8

/-! The decoder. -/

/-- Why bytes are no instruction. -/
inductive Reject where
  /-- No byte at all. -/
  | noOpcode
  /-- The first byte is reserved (R58). -/
  | illegalOpcode (opc : Byte)
  /-- The opcode is defined and its two operand bytes are not all there. -/
  | operandsMissing (opc : Byte)
  deriving DecidableEq, Repr

/-- Decode one instruction from the front of `bytes` and return the bytes after it (R50 to R56). Total: bytes that are
no instruction are rejected by name. -/
def decode (bytes : List Byte) : Except Reject (Instr × List Byte) :=
  match bytes with
  | [] => .error .noOpcode
  | opc :: rest =>
    match opcodeOfByte opc, rest with
    | none, _ => .error (.illegalOpcode opc)
    | some .movLitR1, hi :: lo :: rest => .ok (.movLitR1 (joinBytes hi lo), rest)
    | some .movLitR2, hi :: lo :: rest => .ok (.movLitR2 (joinBytes hi lo), rest)
    | some .addRegReg, ra :: rb :: rest => .ok (.addRegReg ra rb, rest)
    | some _, _ => .error (.operandsMissing opc)

/-- The instruction that `bytes` begin with, if they begin with one. -/
def decodeFirst (bytes : List Byte) : Option Instr :=
  match decode bytes with
  | .ok (i, _) => some i
  | .error _ => none

/-! The encoder. -/

/-- The opcode of an instruction (R56). -/
def opcodeOf : Instr → Opcode
  | .movLitR1 _ => .movLitR1
  | .movLitR2 _ => .movLitR2
  | .addRegReg _ _ => .addRegReg

/-- The operand bytes of an instruction in address order (R51, R52): the literal's high byte first. -/
def operandBytes : Instr → List Byte
  | .movLitR1 lit => [hiByte lit, loByte lit]
  | .movLitR2 lit => [hiByte lit, loByte lit]
  | .addRegReg ra rb => [ra, rb]

/-- The bytes of an instruction in address order (R50). -/
def encode (i : Instr) : List Byte := byteOfOpcode (opcodeOf i) :: operandBytes i

/-! The numbering of spec/opcode_table.json. -/

/-- The low `n` bytes of `w`, the most significant first. DEDUCED (safe, log entry 6): R53 and the table's `bits`
number the instruction as `byte[A]*65536 + byte[A+1]*256 + byte[A+2]`, so the byte at the lowest address is the most
significant one. -/
def bigEndianBytes : Nat → Nat → List Byte
  | 0, _ => []
  | n + 1, w => BitVec.ofNat 8 (w / 256 ^ n) :: bigEndianBytes n w

/-- The bytes of the instruction whose `nbits` bits are `w`, in address order; bytes past `nbits` are 0. -/
def tableBytes (nbits w : Nat) : List Byte :=
  bigEndianBytes (nbits / 8) w ++ List.replicate (3 - nbits / 8) 0

/-- The instruction the decoder reads from the bits `w` of a row of spec/opcode_table.json. -/
def decodeTableWord (nbits w : Nat) : Option Instr := decodeFirst (tableBytes nbits w)

end Sys2Proof
end

