-- ==== Sys2Proof/Machine/Ops.lean ====
section
/-! DEFINITION. The named operations over memory, registers and status: the four access primitives of
spec/20_memory.md, the register accessors of spec/10_state.md R12, and `raise` of spec/60_exceptions.md R105. -/

namespace Sys2Proof.Machine

/-! The Memory component: bytes without bounds. -/

/-- The number of bytes of an access, the `n` of MemOutOfBounds(a, n) (R101). -/
def widthBytes : Width → Nat
  | .byte => 1
  | .word => 2

/-- The byte listed at `a`; 0x00 where nothing is listed (R30). -/
def readCells (a : Nat) : List Host.Cell → Byte
  | [] => 0#8
  | c :: rest => if c.1 = a then c.2 else readCells a rest

/-- The cells without the address `a`. -/
def dropCell (a : Nat) : List Host.Cell → List Host.Cell
  | [] => []
  | c :: rest => if c.1 = a then dropCell a rest else c :: dropCell a rest

/-- The cells with a byte at an address they do not list, before the first greater address. -/
def insertCell (a : Nat) (b : Byte) : List Host.Cell → List Host.Cell
  | [] => [(a, b)]
  | c :: rest => if a < c.1 then (a, b) :: c :: rest else c :: insertCell a b rest

/-- `M[a]` without a bound check. -/
def Memory.byteAt (m : Memory) (a : Nat) : Byte := readCells a m.cells

/-- `M[a] <- b` without a bound check; 0x00 is not listed. -/
def Memory.poke (m : Memory) (a : Nat) (b : Byte) : Memory :=
  { m with cells := if b = 0#8 then dropCell a m.cells else insertCell a b (dropCell a m.cells) }

/-- `M[a] :: M[a+1]`, big-endian (R35). -/
def Memory.wordAt (m : Memory) (a : Nat) : Word := joinBytes (m.byteAt a) (m.byteAt (a + 1))

/-- `M[a] <- w[15:8]; M[a+1] <- w[7:0]` without a bound check (R35). -/
def Memory.pokeWord (m : Memory) (a : Nat) (w : Word) : Memory := (m.poke a (hiByte w)).poke (a + 1) (loByte w)

/-! The four access primitives. The address is a natural number and the bound is tested without wrapping (R38); a
failing access reads and writes nothing (R37). -/

/-- R31. -/
def Memory.read8 (m : Memory) (a : Nat) : Except Cause Byte :=
  if m.cap ≤ a then .error (.memOutOfBounds a .byte) else .ok (m.byteAt a)

/-- R32. -/
def Memory.read16 (m : Memory) (a : Nat) : Except Cause Word :=
  if m.cap ≤ a + 1 then .error (.memOutOfBounds a .word) else .ok (m.wordAt a)

/-- R33. -/
def Memory.write8 (m : Memory) (a : Nat) (b : Byte) : Except Cause Memory :=
  if m.cap ≤ a then .error (.memOutOfBounds a .byte) else .ok (m.poke a b)

/-- R34. -/
def Memory.write16 (m : Memory) (a : Nat) (w : Word) : Except Cause Memory :=
  if m.cap ≤ a + 1 then .error (.memOutOfBounds a .word) else .ok (m.pokeWord a w)

/-! Updates of the state. -/

/-- `status <- st`. -/
def State.withStatus (s : State) (st : Status) : State := { s with status := st }

/-- MEM replaced by `m`, which a memory operation gave. -/
def State.withMem (s : State) (m : Memory) : State := { s with mem := m }

/-! What a sub-operation of a step can answer. -/

/-- A sub-operation goes on with a value, or has raised a fault of the spec, which ends the step in the state given
(R105), or stops because the state is none of the spec's (Fault). -/
inductive Res (α : Type) where
  | ok (a : α) (s : State)
  | raised (s : State)
  | stuck (f : Fault)
  deriving DecidableEq, Repr

/-- Go on with `f` only if nothing was raised: "the rest of the step is abandoned" (R105, R109). -/
def Res.bind {α β : Type} (x : Res α) (f : α → State → Res β) : Res β :=
  match x with
  | .ok a s => f a s
  | .raised s => .raised s
  | .stuck e => .stuck e

/-- The outcome of a whole step: a raised fault is a next state with the latch set (log entry 2). -/
def Res.outcome (x : Res Unit) : Host.Outcome State Fault Refusal :=
  match x with
  | .ok _ s => .next s
  | .raised s => .next s
  | .stuck e => .fault e

/-! Taking a fault. There is no return from one (R108). -/

/-- `raise F(info)` (R105): set the status latch; nothing is saved, no register changes, control goes nowhere. -/
def raise {α : Type} (c : Cause) (s : State) : Res α := .raised (s.withStatus (.faulted c))

/-- The 3-bit fault code of R100: 0 for no fault. -/
def faultCode : Status → BitVec 3
  | .running => 0
  | .faulted (.memOutOfBounds _ _) => 1
  | .faulted (.unknownRegisterName _) => 2
  | .faulted (.regIndexOutOfRange _ _) => 3
  | .faulted (.illegalOpcode _ _) => 4

/-! Accesses to MEM. -/

/-- `MEMSIZE` (spec/00_scope.md R4). -/
def State.memSize (s : State) : Nat := s.mem.cap

/-- `MemRead(a, 1)`. -/
def memRead8 (a : Nat) (s : State) : Res Byte :=
  match s.mem.read8 a with
  | .ok b => .ok b s
  | .error c => raise c s

/-- `MemRead(a, 2)`. -/
def memRead16 (a : Nat) (s : State) : Res Word :=
  match s.mem.read16 a with
  | .ok w => .ok w s
  | .error c => raise c s

/-- `MemWrite(a, 1, b)`: a primitive of the datapath that no base instruction uses (R40, R48). -/
def memWrite8 (a : Nat) (b : Byte) (s : State) : Res Unit :=
  match s.mem.write8 a b with
  | .ok m => .ok () (s.withMem m)
  | .error c => raise c s

/-- `MemWrite(a, 2, w)`: a primitive of the datapath that no base instruction uses (R40, R48). -/
def memWrite16 (a : Nat) (w : Word) (s : State) : Res Unit :=
  match s.mem.write16 a w with
  | .ok m => .ok () (s.withMem m)
  | .error c => raise c s

/-- The host's raw write (spec/43_host_interface.md R91): no fault, and no move outside the buffer. -/
def State.preload (a : Nat) (b : Byte) (s : State) : Option State :=
  if s.memSize ≤ a then none else some (s.withMem (s.mem.poke a b))

/-- Preload the bytes `bs` at the addresses `as`, one by one; an address outside MEM takes no byte
(spec/43_host_interface.md R91). -/
def preloadAll : List Nat → List Byte → State → State
  | a :: as, b :: bs, s => preloadAll as bs ((s.preload a b).getD s)
  | _, _, s => s

/-! Registers (10_state.md R10 to R13). -/

/-- `NREG` (spec/00_scope.md R3). -/
def State.nreg (s : State) : Nat := Config.nregOf s.ngpr

/-- The indices of the registers the core uses by name (R11). -/
def ipIndex : Nat := 0
/-- `acc` (R11). -/
def accIndex : Nat := 1
/-- `r1` (R11). -/
def r1Index : Nat := 2
/-- `r2` (R11). -/
def r2Index : Nat := 3

/-- `x[i] = RF[2i] :: RF[2i+1]` (R12), as a plain view of the state. -/
def State.reg (s : State) (i : Nat) : Word := s.rf.wordAt (2 * i)

/-- `x[i] <- v` (R12), as a plain update of the state. -/
def State.withReg (s : State) (i : Nat) (v : Word) : State := { s with rf := s.rf.pokeWord (2 * i) v }

/-- The program counter, register `ip` (R18). -/
def State.ip (s : State) : Word := s.reg ipIndex

/-- `RfRead(off)`: the 16-bit read of RF (R12). RF out of bounds cannot happen on the spec's machine (R103). -/
def rfRead (off : Nat) (s : State) : Res Word :=
  match s.rf.read16 off with
  | .ok w => .ok w s
  | .error _ => .stuck (.registerFileOutOfBounds off)

/-- `RfWrite(off, v)`: the 16-bit write of RF (R12). -/
def rfWrite (off : Nat) (v : Word) (s : State) : Res Unit :=
  match s.rf.write16 off v with
  | .ok m => .ok () { s with rf := m }
  | .error _ => .stuck (.registerFileOutOfBounds off)

/-- Read register `i`, whose index is known to exist: `offset = index * 2` (R12). -/
def readReg (i : Nat) (s : State) : Res Word := rfRead (2 * i) s

/-- Write register `i`, whose index is known to exist (R12). -/
def writeReg (i : Nat) (v : Word) (s : State) : Res Unit := rfWrite (2 * i) v s

end Sys2Proof.Machine
end

