-- ==== Sys2Proof/Machine/Operands.lean ====
section
/-! DEFINITION. The two ways to name a register: by raw index, from an operand byte (spec/10_state.md R14), and by name
(R11, R15). -/

namespace Sys2Proof.Machine

/-- `get_by_index(i)` (R14): the index is checked before RF is touched (spec/60_exceptions.md R104). -/
def getByIndex (i : Byte) (k : OperandPos) (s : State) : Res Word :=
  if s.nreg ≤ i.toNat then raise (.regIndexOutOfRange i k) s else readReg i.toNat s

/-- The name of the register with index `i` (R11). -/
def regName (i : Nat) : String :=
  if i = ipIndex then "ip" else if i = accIndex then "acc" else "r" ++ toString (i - 1)

/-- The index of a register name among the first `nreg` (R11); `none` for any other name (R15). -/
def indexOfName (nreg : Nat) (name : String) : Option Nat := (List.range nreg).find? fun i => regName i = name

/-- The lookup of `get` and `set` (R15): a name outside the fixed set is UnknownRegisterName. -/
def resolveName (name : String) (s : State) : Except Cause Nat :=
  match indexOfName s.nreg name with
  | some i => .ok i
  | none => .error (.unknownRegisterName name)

end Sys2Proof.Machine
end

