-- ==== Sys2Proof/Machine/Arithmetic.lean ====
section
/-! DEFINITION. The arithmetic instruction (spec/42_add.md), after both its operand bytes have been fetched. -/

namespace Sys2Proof.Machine

/-- ADD_REG_REG (R85): check and read `ra`, check and read `rb`, then write the sum to `acc`. -/
def execAddRegReg (ra rb : Byte) (s : State) : Host.Outcome State Fault Refusal :=
  ((getByIndex ra .first s).bind fun va s =>
   (getByIndex rb .second s).bind fun vb s =>
   writeReg accIndex (addWrap va vb) s).outcome

end Sys2Proof.Machine
end

