-- ==== Sys2Proof/Machine/MoveLiteral.lean ====
section
/-! DEFINITION. The move-literal instructions (spec/41_move_literal.md), after their literal has been fetched. -/

namespace Sys2Proof.Machine

/-- MOV_LIT_R1 (R80): `set("r1", lit)`. -/
def execMovLitR1 (lit : Word) (s : State) : Host.Outcome State Fault Refusal := (writeReg r1Index lit s).outcome

/-- MOV_LIT_R2 (R81): `set("r2", lit)`. -/
def execMovLitR2 (lit : Word) (s : State) : Host.Outcome State Fault Refusal := (writeReg r2Index lit s).outcome

end Sys2Proof.Machine
end

