-- ==== Sys2Proof/Machine/Dispatch.lean ====
section
/-! DEFINITION. One arm per instruction: the meaning each opcode dispatches to (spec/40_fetch_decode.md R68). -/

namespace Sys2Proof.Machine

def exec (i : Instr) (s : State) : Host.Outcome State Fault Refusal :=
  match i with
  | .movLitR1 lit => Sys2Proof.Machine.execMovLitR1 lit s
  | .movLitR2 lit => Sys2Proof.Machine.execMovLitR2 lit s
  | .addRegReg ra rb => Sys2Proof.Machine.execAddRegReg ra rb s

end Sys2Proof.Machine
end

