-- ==== Sys2Proof/Machine/Fetch.lean ====
section
/-! DEFINITION. The fetch unit and the recognition of the opcode (spec/40_fetch_decode.md R65 to R70). -/

namespace Sys2Proof.Machine

/-- `fetch()` (R65): the byte at `ip`, then `ip` advanced by 1, modulo 65536. -/
def fetch (s : State) : Res Byte :=
  (readReg ipIndex s).bind fun a s =>
  (memRead8 a.toNat s).bind fun b s =>
  (writeReg ipIndex (trunc16 (a.toNat + 1)) s).bind fun _ s =>
  .ok b s

/-- `fetch16()` (R66): the word at `ip` by one access, then `ip` advanced by 2, modulo 65536. -/
def fetch16 (s : State) : Res Word :=
  (readReg ipIndex s).bind fun a s =>
  (memRead16 a.toNat s).bind fun w s =>
  (writeReg ipIndex (trunc16 (a.toNat + 2)) s).bind fun _ s =>
  .ok w s

/-- The illegal-opcode arm (R69): `addr = trunc16(ip - 1)`, with `ip` already past the opcode. -/
def illegalOpcode {α : Type} (opc : Byte) (s : State) : Res α :=
  (readReg ipIndex s).bind fun a s => raise (.illegalOpcode opc (a - 1)) s

/-- Fetch one instruction: the opcode, then the operands its opcode asks for, in the order of R68 and R73. What is left
of the instruction after its last fetch is its meaning (log entry 5). -/
def fetchInstr (s : State) : Res Instr :=
  (fetch s).bind fun opc s =>
  match opcodeOfByte opc with
  | some .movLitR1 => (fetch16 s).bind fun lit s => .ok (.movLitR1 lit) s
  | some .movLitR2 => (fetch16 s).bind fun lit s => .ok (.movLitR2 lit) s
  | some .addRegReg => (fetch s).bind fun ra s => (fetch s).bind fun rb s => .ok (.addRegReg ra rb) s
  | none => illegalOpcode opc s

/-- The addresses of the three bytes of an instruction with opcode byte `opc` at `ip` (R70): each fetch starts at the
wrapped `ip`, and the second byte of a 16-bit literal is at the address after the first, not wrapped. -/
def instrAddrs (opc : Byte) (ip : Word) : List Nat :=
  let second := (trunc16 (ip.toNat + 1)).toNat
  let third := if opcodeOfByte opc = some .addRegReg then (trunc16 (ip.toNat + 2)).toNat else second + 1
  [ip.toNat, second, third]

end Sys2Proof.Machine
end

