-- ==== Sys2Proof/Machine/Step.lean ====
section
/-! DEFINITION. One step of the machine (spec/40_fetch_decode.md R67). -/

namespace Sys2Proof.Machine

/-- `step()` (R67): a faulted machine refuses; a running one fetches one instruction and executes it, or ends in the
fault that was raised. -/
def step (s : State) : Host.Outcome State Fault Refusal :=
  match s.status with
  | .faulted c => .refused (.alreadyFaulted c)
  | .running =>
    match fetchInstr s with
    | .ok i t => exec i t
    | .raised t => .next t
    | .stuck e => .fault e

/-- `s` with the instruction whose `nbits` bits are `w` preloaded where the next step fetches (log entry 7). -/
def State.withFetchWord (s : State) (nbits w : Nat) : State :=
  let bytes := tableBytes nbits w
  preloadAll (instrAddrs (bytes.headD 0) s.ip) bytes s

end Sys2Proof.Machine
end

