-- ==== Sys2Proof/Machine/HostPort.lean ====
section
/-! DEFINITION. What the host can do to the machine between two steps (spec/43_host_interface.md R90 to R98). Creating
the memory is State.powerOn's part: it happens once, before there is a state (log entry 8). -/

namespace Sys2Proof.Machine

/-- The host's transactions on an existing machine (the table of R98), with the read-back that R91 gives the preload
view. -/
inductive Transaction where
  | preload (a : Nat) (b : Byte)
  | readBack (a : Nat)
  | constructCpu
  | step
  | get (name : String)
  | set (name : String) (value : Nat)
  | dump
  | readStatus
  deriving DecidableEq, Repr

/-- What the core hands back (R98). -/
inductive Reply where
  | done
  | byte (b : Byte)
  | word (w : Word)
  | text (t : String)
  | status (st : Status)
  | completed
  | faulted (c : Cause)
  | refused
  | error (c : Cause)
  deriving DecidableEq, Repr

/-- `hex4(v)` (R95): four lower-case hexadecimal digits, zero-padded. -/
def hex4 (v : Word) : String :=
  String.ofList ([4096, 256, 16, 1].map fun p => Nat.digitChar (v.toNat / p % 16))

/-- One line of the dump (R95). -/
def dumpLine (s : State) (i : Nat) : String := regName i ++ ": 0x" ++ hex4 (s.reg i) ++ "\n"

/-- `dump()` (R95): a line per register in index order, then an empty line. -/
def dumpText (s : State) : String := String.join ((List.range s.nreg).map (dumpLine s)) ++ "\n"

/-- The reply to a step transaction that gave the state `t` (R93). -/
def stepReply (t : State) : Reply :=
  match t.status with
  | .running => .completed
  | .faulted c => .faulted c

/-- The step transaction (R93). -/
def hostStep (s : State) : Option (State × Reply) :=
  match Sys2Proof.Machine.step s with
  | .next t => some (t, stepReply t)
  | .refused _ => some (s, .refused)
  | .fault _ => none

/-- The get transaction (R94): an unknown name is the reply, and changes nothing. -/
def hostGet (name : String) (s : State) : Option (State × Reply) :=
  match resolveName name s with
  | .error c => some (s, .error c)
  | .ok i =>
    match readReg i s with
    | .ok w t => some (t, .word w)
    | _ => none

/-- The set transaction (R94): the value is truncated to 16 bits (spec/10_state.md R13). -/
def hostSet (name : String) (value : Nat) (s : State) : Option (State × Reply) :=
  match resolveName name s with
  | .error c => some (s, .error c)
  | .ok i =>
    match writeReg i (trunc16 value) s with
    | .ok _ t => some (t, .done)
    | _ => none

/-- A transaction: the state after it and the reply; `none` where the interface gives the host no move (R91, R97). -/
def hostDo (tr : Transaction) (s : State) : Option (State × Reply) :=
  match tr with
  | .preload a b => (s.preload a b).map fun t => (t, .done)
  | .readBack a => if s.memSize ≤ a then none else some (s, .byte (s.mem.byteAt a))
  | .constructCpu => some (State.construct s.ngpr s.mem, .done)
  | .step => hostStep s
  | .get name => hostGet name s
  | .set name value => hostSet name value s
  | .dump => some (s, .text (dumpText s))
  | .readStatus => some (s, .status s.status)

end Sys2Proof.Machine
end

