-- ==== Sys2Proof/Safety.lean ====
section
/-! DEFINITION. What claims are stated with: the invariant of a machine state, frames, runs
(spec/40_fetch_decode.md R77) and the named premises of spec/70_reset_and_hazards.md R129. -/

namespace Sys2Proof.Machine

/-! The invariant. -/

/-- The status record says what R101 says it means: the range is not inside MEM, no register has the index, the byte
is no opcode; and a name is never recorded (R106). -/
def statusOk (s : State) : Bool :=
  match s.status with
  | .running => true
  | .faulted (.memOutOfBounds a n) => decide (a < 65536) && decide (s.memSize < a + widthBytes n)
  | .faulted (.unknownRegisterName _) => false
  | .faulted (.regIndexOutOfRange i _) => decide (s.nreg ≤ i.toNat)
  | .faulted (.illegalOpcode opc _) => decide (opcodeOfByte opc = none)

/-- What every state of the spec's machine meets: NGPR is legal (spec/00_scope.md R3), RF has `2 * NREG` bytes (R5),
both memories are in canonical form, and the status record is true. -/
abbrev State.Inv (s : State) : Prop :=
  Config.LegalNgpr s.ngpr ∧ s.rf.cap = 2 * s.nreg ∧ s.mem.wf = true ∧ s.rf.wf = true ∧ statusOk s = true

/-! The bytes a step fetches. -/

/-- The opcode byte that the next step fetches. -/
def State.opcodeByte (s : State) : Byte := s.mem.byteAt s.ip.toNat

/-- The addresses of the three bytes that the next step fetches, if it completes (R70). -/
def State.nextAddrs (s : State) : List Nat := instrAddrs s.opcodeByte s.ip

/-! Frames. -/

/-- Going from `s` to `t` left NGPR, the capacity of MEM, every byte of MEM and every register not among `written` as
they were. -/
def FrameExcept (written : List Nat) (s t : State) : Prop :=
  t.ngpr = s.ngpr ∧ t.rf.cap = s.rf.cap ∧ t.mem.cap = s.mem.cap ∧ (∀ a, t.mem.byteAt a = s.mem.byteAt a) ∧
  ∀ j, j ∉ written → t.reg j = s.reg j

/-- `x[0] <- trunc16(ip + n)`: the state after `n` bytes have been fetched (spec/10_state.md R18). -/
def State.advance (s : State) (n : Nat) : State := s.withReg 0 (trunc16 (s.ip.toNat + n))

/-- The index of the register that an opcode has for its destination (spec/30_encoding.md R51, R52). -/
def destIndex : Opcode → Nat
  | .movLitR1 => r1Index
  | .movLitR2 => r2Index
  | .addRegReg => accIndex

/-- The number that a string of lower-case hexadecimal digits writes; used to say what the dump prints. -/
def hexValue (text : String) : Nat :=
  text.toList.foldl (fun n c => 16 * n + "0123456789abcdef".toList.idxOf c) 0

/-! Runs (R77), under the premise HostQuiet: no host action between two steps. -/

/-- The state a run of `n` steps leaves: a refused step changes nothing. -/
def runOf : Nat → State → State
  | 0, s => s
  | n + 1, s =>
    match step s with
    | .next t => runOf n t
    | .fault _ => s
    | .refused _ => s

/-- The run of `n` steps completes: every one of its steps completes with the status running. -/
def completes : Nat → State → Bool
  | 0, s => decide (s.status = .running)
  | n + 1, s =>
    match step s with
    | .next t => decide (t.status = .running) && completes n t
    | .fault _ => false
    | .refused _ => false

/-! The named premises of R129. -/

/-- `NoFault`. -/
abbrev NoFault (s : State) : Prop := s.status = .running

/-- `ResetState`: says nothing about MEM. -/
abbrev ResetState (s : State) : Prop := s = State.construct s.ngpr s.mem

/-- `Loaded(P, B)`. -/
def Loaded (p : List Byte) (b : Nat) (s : State) : Prop :=
  b + p.length ≤ s.memSize ∧ ∀ i (h : i < p.length), s.mem.byteAt (b + i) = p[i]

/-- `ZeroElsewhere(P, B)`. -/
def ZeroElsewhere (p : List Byte) (b : Nat) (s : State) : Prop :=
  ∀ a, a < s.memSize → (a < b ∨ b + p.length ≤ a) → s.mem.byteAt a = 0

end Sys2Proof.Machine
end

