-- ==== Sys2Proof/Certificates/Slice0/Obligations.lean ====
section
/-! DEFINITION. The statements about the machine, each from the rules of spec/ that its docstring names. They hold for
every NGPR and every MEMSIZE, since both stand in the state. `A` is `ip` before a step, `A'` is `trunc16(A + 1)`. -/

open Sys2Proof Sys2Proof.Machine

/-! Encoding (spec/30_encoding.md). -/

/-- No bit of an encoding is dropped: decoding an encoded instruction gives it back, with the bytes after it. -/
def Obligations.DecodeOfEncodeIsTheInstruction : Prop :=
  ∀ (i : Instr) (rest : List Byte), decode (encode i ++ rest) = .ok (i, rest)

/-- Each instruction has one encoding: bytes that decode to an instruction begin with its encoding. -/
def Obligations.DecodedBytesAreTheEncoding : Prop :=
  ∀ (bytes : List Byte) (i : Instr) (rest : List Byte), decode bytes = .ok (i, rest) → bytes = encode i ++ rest

/-- The opcode map is complete: 253 opcode bytes are rejected by name and the other three, with two operand bytes of
any value, are instructions of three bytes. -/
def Obligations.ExactlyThreeOpcodesDecode : Prop :=
  ∀ (opc : Byte) (rest : List Byte),
    (opc ∉ [0x10#8, 0x11#8, 0x12#8] → decode (opc :: rest) = .error (.illegalOpcode opc)) ∧
    (opc ∈ [0x10#8, 0x11#8, 0x12#8] → ∀ b c : Byte, ∃ i, decode (opc :: b :: c :: rest) = .ok (i, rest))

/-- The formats L and RR: the literal's high byte first, and the two index bytes in their order. -/
def Obligations.OperandsAreReadAsTheFormatsSay : Prop :=
  ∀ (b c : Byte) (rest : List Byte), ∃ lit : Word, lit.toNat = b.toNat * 256 + c.toNat ∧
    decode (0x10#8 :: b :: c :: rest) = .ok (.movLitR1 lit, rest) ∧
    decode (0x11#8 :: b :: c :: rest) = .ok (.movLitR2 lit, rest) ∧
    decode (0x12#8 :: b :: c :: rest) = .ok (.addRegReg b c, rest)

/-- The three instructions of the source's own program, as words of the opcode table. -/
def Obligations.WordsOfTheSpecDecode : Prop :=
  decodeTableWord 24 0x101234 = some (.movLitR1 0x1234#16) ∧
  decodeTableWord 24 0x11ABCD = some (.movLitR2 0xABCD#16) ∧
  decodeTableWord 24 0x120203 = some (.addRegReg 2#8 3#8) ∧
  decodeTableWord 24 0x000000 = none

/-! The memory primitives (spec/20_memory.md). -/

/-- R31, on either instance, and as MemRead(a, 1) on MEM. -/
def Obligations.EightBitReadIsBoundedAndPure : Prop :=
  (∀ (m : Memory) (a : Nat),
    (m.cap ≤ a → m.read8 a = .error (.memOutOfBounds a .byte)) ∧ (a < m.cap → m.read8 a = .ok (m.byteAt a))) ∧
  ∀ (s : State) (a : Nat),
    (s.memSize ≤ a → memRead8 a s = raise (.memOutOfBounds a .byte) s) ∧
    (a < s.memSize → memRead8 a s = .ok (s.mem.byteAt a) s)

/-- R32, on either instance, and as MemRead(a, 2) on MEM: the byte at the lower address is the high byte. -/
def Obligations.SixteenBitReadIsBigEndian : Prop :=
  (∀ (m : Memory) (a : Nat),
    (m.cap ≤ a + 1 → m.read16 a = .error (.memOutOfBounds a .word)) ∧
    (a + 1 < m.cap → ∃ w, m.read16 a = .ok w ∧ w.toNat = (m.byteAt a).toNat * 256 + (m.byteAt (a + 1)).toNat)) ∧
  ∀ (s : State) (a : Nat),
    (s.memSize ≤ a + 1 → memRead16 a s = raise (.memOutOfBounds a .word) s) ∧
    (a + 1 < s.memSize → ∃ w, memRead16 a s = .ok w s ∧
      w.toNat = (s.mem.byteAt a).toNat * 256 + (s.mem.byteAt (a + 1)).toNat)

/-- R33, on either instance, and as MemWrite(a, 1, b) on MEM: one byte changes and no other. -/
def Obligations.EightBitWriteChangesOneByte : Prop :=
  (∀ (m : Memory) (a : Nat) (b : Byte),
    (m.cap ≤ a → m.write8 a b = .error (.memOutOfBounds a .byte)) ∧
    (a < m.cap → ∃ m', m.write8 a b = .ok m' ∧ m'.cap = m.cap ∧ m'.byteAt a = b ∧
      ∀ x, x ≠ a → m'.byteAt x = m.byteAt x)) ∧
  ∀ (s : State) (a : Nat) (b : Byte),
    (s.memSize ≤ a → memWrite8 a b s = raise (.memOutOfBounds a .byte) s) ∧
    (a < s.memSize → ∃ m', memWrite8 a b s = .ok () (s.withMem m') ∧ s.mem.write8 a b = .ok m')

/-- R34, on either instance, and as MemWrite(a, 2, w) on MEM: the high byte goes to the lower address. -/
def Obligations.SixteenBitWriteIsBigEndian : Prop :=
  (∀ (m : Memory) (a : Nat) (w : Word),
    (m.cap ≤ a + 1 → m.write16 a w = .error (.memOutOfBounds a .word)) ∧
    (a + 1 < m.cap → ∃ m', m.write16 a w = .ok m' ∧ m'.cap = m.cap ∧
      (m'.byteAt a).toNat = w.toNat / 256 ∧ (m'.byteAt (a + 1)).toNat = w.toNat % 256 ∧
      ∀ x, x ≠ a → x ≠ a + 1 → m'.byteAt x = m.byteAt x)) ∧
  ∀ (s : State) (a : Nat) (w : Word),
    (s.memSize ≤ a + 1 → memWrite16 a w s = raise (.memOutOfBounds a .word) s) ∧
    (a + 1 < s.memSize → ∃ m', memWrite16 a w s = .ok () (s.withMem m') ∧ s.mem.write16 a w = .ok m')

/-- R39: what was written is what is read, wherever both accesses are in bounds. -/
def Obligations.ReadAfterWriteRoundTrips : Prop :=
  (∀ (m m' : Memory) (a : Nat) (w : Word), m.write16 a w = .ok m' → m'.read16 a = .ok w) ∧
  ∀ (m m' : Memory) (a : Nat) (b : Byte), m.write8 a b = .ok m' → m'.read8 a = .ok b

/-- R37: an access that is not wholly inside MEM raises MemOutOfBounds and has no other effect; in particular a 16-bit
access at the last byte touches neither byte. -/
def Obligations.OutOfBoundsAccessesHaveNoPartialEffect : Prop :=
  ∀ (s : State) (a : Nat) (b : Byte) (w : Word),
    (s.memSize ≤ a →
      memRead8 a s = .raised (s.withStatus (.faulted (.memOutOfBounds a .byte))) ∧
      memWrite8 a b s = .raised (s.withStatus (.faulted (.memOutOfBounds a .byte)))) ∧
    (s.memSize ≤ a + 1 →
      memRead16 a s = .raised (s.withStatus (.faulted (.memOutOfBounds a .word))) ∧
      memWrite16 a w s = .raised (s.withStatus (.faulted (.memOutOfBounds a .word)))) ∧
    (a < s.memSize → ∃ t u, memRead8 a s = .ok t s ∧ memWrite8 a b s = .ok () u) ∧
    (a + 1 < s.memSize → ∃ t u, memRead16 a s = .ok t s ∧ memWrite16 a w s = .ok () u)

/-! The register file (spec/10_state.md). -/

/-- R12: register `i` is the big-endian word in bytes `2i` and `2i + 1` of RF, which has `2 * NREG` bytes; a write sets
those two bytes and no other, and neither access touches MEM or the status. -/
def Obligations.RegistersAreBigEndianWordsOfTheirBackingMemory : Prop :=
  ∀ (s : State) (i : Nat) (v : Word), s.Inv → i < s.nreg →
    s.rf.cap = 2 * s.nreg ∧
    readReg i s = .ok (joinBytes (s.rf.byteAt (2 * i)) (s.rf.byteAt (2 * i + 1))) s ∧
    ∃ t, writeReg i v s = .ok () t ∧ t.ngpr = s.ngpr ∧ t.mem = s.mem ∧ t.status = s.status ∧
      (t.rf.byteAt (2 * i)).toNat = v.toNat / 256 ∧ (t.rf.byteAt (2 * i + 1)).toNat = v.toNat % 256 ∧
      ∀ x, x ≠ 2 * i → x ≠ 2 * i + 1 → t.rf.byteAt x = s.rf.byteAt x

/-- R14: an index byte that names no register is raised with its position, before RF is touched; any other reads its
register and changes nothing. -/
def Obligations.RegisterIndexIsCheckedBeforeTheRead : Prop :=
  ∀ (s : State) (i : Byte) (k : OperandPos), s.Inv →
    (s.nreg ≤ i.toNat → getByIndex i k s = .raised (s.withStatus (.faulted (.regIndexOutOfRange i k)))) ∧
    (i.toNat < s.nreg → getByIndex i k s = .ok (s.reg i.toNat) s)

/-- R11: `ip` is index 0, `acc` is index 1, `r<k>` is index `k + 1`, and a name is a register's only when it is the
name of its index: there are no aliases. -/
def Obligations.RegisterNamesFollowTheirIndices : Prop :=
  regName 0 = "ip" ∧ regName 1 = "acc" ∧ (∀ k, 1 ≤ k → regName (k + 1) = "r" ++ toString k) ∧
  ∀ (nreg i : Nat) (name : String), indexOfName nreg name = some i ↔ i < nreg ∧ regName i = name

/-- R94: get and set by name. An unknown name is the reply and changes nothing; set truncates its value, changes one
register and never the status; setting `ip` moves the next fetch. -/
def Obligations.HostReachesRegistersByName : Prop :=
  ∀ (s : State) (name : String) (value : Nat), s.Inv →
    (indexOfName s.nreg name = none →
      hostDo (.get name) s = some (s, .error (.unknownRegisterName name)) ∧
      hostDo (.set name value) s = some (s, .error (.unknownRegisterName name))) ∧
    (∀ i, indexOfName s.nreg name = some i →
      hostDo (.get name) s = some (s, .word (s.reg i)) ∧
      ∃ t, hostDo (.set name value) s = some (t, .done) ∧ (t.reg i).toNat = value % 65536 ∧ t.status = s.status ∧
        FrameExcept [i] s t) ∧
    ∃ t, hostDo (.set "ip" value) s = some (t, .done) ∧ t.ip = trunc16 value ∧
      (value % 65536 < s.memSize → ∃ u, fetch t = .ok (s.mem.byteAt (value % 65536)) u)

/-- R17: set then get of a name returns the value truncated to 16 bits, and get of any other name returns what it
returned before. -/
def Obligations.SetThenGetReturnsTheTruncatedValue : Prop :=
  ∀ (s t : State) (name : String) (value : Nat), s.Inv → hostDo (.set name value) s = some (t, .done) →
    hostDo (.get name) t = some (t, .word (trunc16 value)) ∧
    ∀ other, other ≠ name → (hostDo (.get other) t).map Prod.snd = (hostDo (.get other) s).map Prod.snd

/-- R16: no transaction of the host, a step among them, adds, removes, renames or reorders a register; nor does one
change MEMSIZE. -/
def Obligations.TheRegisterNamesAndSizesNeverChange : Prop :=
  ∀ (tr : Transaction) (s t : State) (r : Reply), s.Inv → hostDo tr s = some (t, r) →
    t.ngpr = s.ngpr ∧ t.memSize = s.memSize ∧ (∀ name, indexOfName t.nreg name = indexOfName s.nreg name) ∧
    t.rf.cap = s.rf.cap

/-! The fetch unit (spec/40_fetch_decode.md). -/

/-- R65: the byte at `ip`, then `ip` advanced by 1 modulo 65536 and nothing else changed; out of bounds, the fault, and
`ip` not advanced. -/
def Obligations.FetchReadsOneByteAndAdvances : Prop :=
  ∀ s : State, s.Inv →
    (s.memSize ≤ s.ip.toNat →
      fetch s = .raised (s.withStatus (.faulted (.memOutOfBounds s.ip.toNat .byte)))) ∧
    (s.ip.toNat < s.memSize → ∃ t, fetch s = .ok (s.mem.byteAt s.ip.toNat) t ∧
      t.ip.toNat = (s.ip.toNat + 1) % 65536 ∧ t.status = s.status ∧ FrameExcept [0] s t)

/-- R66: one 16-bit access at `ip`, then `ip` advanced by 2 modulo 65536; the second address does not wrap, and a fetch
that does not lie wholly inside MEM advances nothing. -/
def Obligations.Fetch16IsOneAccessAndAdvancesByTwo : Prop :=
  ∀ s : State, s.Inv →
    (s.memSize ≤ s.ip.toNat + 1 →
      fetch16 s = .raised (s.withStatus (.faulted (.memOutOfBounds s.ip.toNat .word)))) ∧
    (s.ip.toNat + 1 < s.memSize → ∃ w t, fetch16 s = .ok w t ∧
      w.toNat = (s.mem.byteAt s.ip.toNat).toNat * 256 + (s.mem.byteAt (s.ip.toNat + 1)).toNat ∧
      t.ip.toNat = (s.ip.toNat + 2) % 65536 ∧ t.status = s.status ∧ FrameExcept [0] s t)

/-- R69: an opcode byte that is none of the three raises IllegalOpcode with its address, `ip` past the opcode and
nothing else changed, and the machine takes no further step. -/
def Obligations.IllegalOpcodeFaultsAfterItsFetch : Prop :=
  ∀ s : State, s.Inv → s.status = .running → s.ip.toNat < s.memSize →
    s.opcodeByte ∉ [0x10#8, 0x11#8, 0x12#8] →
    ∃ t, step s = .next t ∧ t.status = .faulted (.illegalOpcode s.opcodeByte s.ip) ∧
      t.ip = trunc16 (s.ip.toNat + 1) ∧ FrameExcept [0] s t ∧
      step t = .refused (.alreadyFaulted (.illegalOpcode s.opcodeByte s.ip))

/-! A step (spec/40_fetch_decode.md R67, R68). -/

/-- A step runs the decoded instruction: when the three bytes that the next step fetches are inside MEM and decode to an
instruction, the step is that instruction's meaning on the state with `ip` past the instruction. -/
def Obligations.StepRunsTheDecodedInstruction : Prop :=
  ∀ (s : State) (i : Instr), s.Inv → s.status = .running → (∀ a ∈ s.nextAddrs, a < s.memSize) →
    decode (s.nextAddrs.map s.mem.byteAt) = .ok (i, []) → step s = exec i (s.advance 3)

/-- The addresses of those three bytes (R54, R70): each fetch starts at the wrapped `ip`, and only the second byte of a
literal at 0xFFFF lies past the wrap. -/
def Obligations.InstructionBytesFollowTheWrappedInstructionPointer : Prop :=
  ∀ s : State,
    (s.opcodeByte ∉ [0x10#8, 0x11#8] ∨ s.ip ≠ 0xFFFE#16 →
      opcodeOfByte s.opcodeByte ≠ none →
      s.nextAddrs = [s.ip.toNat, (s.ip.toNat + 1) % 65536, (s.ip.toNat + 2) % 65536]) ∧
    (s.opcodeByte ∈ [0x10#8, 0x11#8] → s.ip = 0xFFFE#16 → s.nextAddrs = [0xFFFE, 0xFFFF, 0x10000])

/-- An instruction loaded where the machine fetches is the one it runs: under NoFault and Loaded of its encoding at `A`,
with its three bytes not past 0xFFFF, the step is its meaning on the state with `ip` past it. -/
def Obligations.ALoadedInstructionRuns : Prop :=
  ∀ (s : State) (i : Instr), s.Inv → NoFault s → Loaded (encode i) s.ip.toNat s → s.ip.toNat ≤ 0xFFFD →
    step s = exec i (s.advance 3)

/-- R80, whole: what one step does when MOV_LIT_R1 stands at `A`, with both faults and what they leave. -/
def Obligations.StepOfMovLitR1LoadsR1OrFaults : Prop :=
  ∀ s : State, s.Inv → s.status = .running →
    (s.memSize ≤ s.ip.toNat →
      ∃ t, step s = .next t ∧ t.status = .faulted (.memOutOfBounds s.ip.toNat .byte) ∧ FrameExcept [] s t) ∧
    (s.ip.toNat < s.memSize → s.opcodeByte = 0x10#8 →
      s.memSize ≤ (trunc16 (s.ip.toNat + 1)).toNat + 1 →
      ∃ t, step s = .next t ∧ t.status = .faulted (.memOutOfBounds (trunc16 (s.ip.toNat + 1)).toNat .word) ∧
        t.ip = trunc16 (s.ip.toNat + 1) ∧ FrameExcept [0] s t) ∧
    (s.ip.toNat < s.memSize → s.opcodeByte = 0x10#8 →
      (trunc16 (s.ip.toNat + 1)).toNat + 1 < s.memSize →
      ∃ t, step s = .next t ∧ t.status = .running ∧ t.ip = trunc16 (s.ip.toNat + 3) ∧
        (t.reg 2).toNat = (s.mem.byteAt (trunc16 (s.ip.toNat + 1)).toNat).toNat * 256 +
          (s.mem.byteAt ((trunc16 (s.ip.toNat + 1)).toNat + 1)).toNat ∧
        FrameExcept [0, 2] s t)

/-- R81, whole: what one step does when MOV_LIT_R2 stands at `A`, with both faults and what they leave. -/
def Obligations.StepOfMovLitR2LoadsR2OrFaults : Prop :=
  ∀ s : State, s.Inv → s.status = .running →
    (s.memSize ≤ s.ip.toNat →
      ∃ t, step s = .next t ∧ t.status = .faulted (.memOutOfBounds s.ip.toNat .byte) ∧ FrameExcept [] s t) ∧
    (s.ip.toNat < s.memSize → s.opcodeByte = 0x11#8 →
      s.memSize ≤ (trunc16 (s.ip.toNat + 1)).toNat + 1 →
      ∃ t, step s = .next t ∧ t.status = .faulted (.memOutOfBounds (trunc16 (s.ip.toNat + 1)).toNat .word) ∧
        t.ip = trunc16 (s.ip.toNat + 1) ∧ FrameExcept [0] s t) ∧
    (s.ip.toNat < s.memSize → s.opcodeByte = 0x11#8 →
      (trunc16 (s.ip.toNat + 1)).toNat + 1 < s.memSize →
      ∃ t, step s = .next t ∧ t.status = .running ∧ t.ip = trunc16 (s.ip.toNat + 3) ∧
        (t.reg 3).toNat = (s.mem.byteAt (trunc16 (s.ip.toNat + 1)).toNat).toNat * 256 +
          (s.mem.byteAt ((trunc16 (s.ip.toNat + 1)).toNat + 1)).toNat ∧
        FrameExcept [0, 3] s t)

/-- R85, whole: what one step does when ADD_REG_REG stands at `A`: its five faults in the order they are tested, what
each leaves, and the sum, for which the sources are read after both operand fetches. -/
def Obligations.StepOfAddRegRegSumsOrFaults : Prop :=
  ∀ s : State, s.Inv → s.status = .running →
    let b := (trunc16 (s.ip.toNat + 1)).toNat
    let c := (trunc16 (s.ip.toNat + 2)).toNat
    let ra := s.mem.byteAt b
    let rb := s.mem.byteAt c
    (s.memSize ≤ s.ip.toNat →
      ∃ t, step s = .next t ∧ t.status = .faulted (.memOutOfBounds s.ip.toNat .byte) ∧ FrameExcept [] s t) ∧
    (s.ip.toNat < s.memSize → s.opcodeByte = 0x12#8 → s.memSize ≤ b →
      ∃ t, step s = .next t ∧ t.status = .faulted (.memOutOfBounds b .byte) ∧ t.ip = trunc16 (s.ip.toNat + 1) ∧
        FrameExcept [0] s t) ∧
    (s.ip.toNat < s.memSize → s.opcodeByte = 0x12#8 → b < s.memSize → s.memSize ≤ c →
      ∃ t, step s = .next t ∧ t.status = .faulted (.memOutOfBounds c .byte) ∧ t.ip = trunc16 (s.ip.toNat + 2) ∧
        FrameExcept [0] s t) ∧
    (s.ip.toNat < s.memSize → s.opcodeByte = 0x12#8 → b < s.memSize → c < s.memSize → s.nreg ≤ ra.toNat →
      ∃ t, step s = .next t ∧ t.status = .faulted (.regIndexOutOfRange ra .first) ∧
        t.ip = trunc16 (s.ip.toNat + 3) ∧ FrameExcept [0] s t) ∧
    (s.ip.toNat < s.memSize → s.opcodeByte = 0x12#8 → b < s.memSize → c < s.memSize → ra.toNat < s.nreg →
      s.nreg ≤ rb.toNat →
      ∃ t, step s = .next t ∧ t.status = .faulted (.regIndexOutOfRange rb .second) ∧
        t.ip = trunc16 (s.ip.toNat + 3) ∧ FrameExcept [0] s t) ∧
    (s.ip.toNat < s.memSize → s.opcodeByte = 0x12#8 → b < s.memSize → c < s.memSize → ra.toNat < s.nreg →
      rb.toNat < s.nreg →
      ∃ t, step s = .next t ∧ t.status = .running ∧ t.ip = trunc16 (s.ip.toNat + 3) ∧
        (t.reg 1).toNat = (((s.advance 3).reg ra.toNat).toNat + ((s.advance 3).reg rb.toNat).toNat) % 65536 ∧
        FrameExcept [0, 1] s t)

/-- Operand aliasing of ADD_REG_REG (42_add.md, the table of its last section): `ip` as a source is the address of the
next instruction, and `acc` as a source is its old value. -/
def Obligations.AddReadsItsSourcesBeforeItWritesAcc : Prop :=
  ∀ (s : State) (ra rb : Byte), s.Inv → s.status = .running → (∀ a ∈ s.nextAddrs, a < s.memSize) →
    s.nextAddrs.map s.mem.byteAt = [0x12#8, ra, rb] → ra.toNat < s.nreg → rb.toNat < s.nreg →
    ∃ t, step s = .next t ∧ t.status = .running ∧
      t.reg 1 = (if ra.toNat = 0 then trunc16 (s.ip.toNat + 3) else s.reg ra.toNat) +
        (if rb.toNat = 0 then trunc16 (s.ip.toNat + 3) else s.reg rb.toNat)

/-! The meanings: where each instruction completes, its result and its frame (41_move_literal.md, 42_add.md). -/

/-- MOV_LIT_R1 completes on every literal: `r1` is the literal and nothing else changes. -/
def Obligations.ExecMovLitR1CompletesAndWritesOnlyR1 : Prop :=
  ∀ (lit : Word) (s : State), s.Inv →
    ∃ t, exec (.movLitR1 lit) s = .next t ∧ t.reg 2 = lit ∧ t.status = s.status ∧ FrameExcept [2] s t

/-- MOV_LIT_R2 completes on every literal: `r2` is the literal and nothing else changes. -/
def Obligations.ExecMovLitR2CompletesAndWritesOnlyR2 : Prop :=
  ∀ (lit : Word) (s : State), s.Inv →
    ∃ t, exec (.movLitR2 lit) s = .next t ∧ t.reg 3 = lit ∧ t.status = s.status ∧ FrameExcept [3] s t

/-- ADD_REG_REG completes on every pair of indices that name registers: `acc` is the sum modulo 65536 of what the two
registers held, and nothing else changes. -/
def Obligations.ExecAddRegRegCompletesAndWritesOnlyAcc : Prop :=
  ∀ (ra rb : Byte) (s : State), s.Inv → ra.toNat < s.nreg → rb.toNat < s.nreg →
    ∃ t, exec (.addRegReg ra rb) s = .next t ∧
      (t.reg 1).toNat = ((s.reg ra.toNat).toNat + (s.reg rb.toNat).toNat) % 65536 ∧
      t.status = s.status ∧ FrameExcept [1] s t

/-- ADD_REG_REG on a bad index takes the fault that names the first bad one, and changes no register. -/
def Obligations.ExecAddRegRegFaultsOnTheFirstBadIndex : Prop :=
  ∀ (ra rb : Byte) (s : State), s.Inv →
    (s.nreg ≤ ra.toNat → ∃ t, exec (.addRegReg ra rb) s = .next t ∧
      t.status = .faulted (.regIndexOutOfRange ra .first) ∧ FrameExcept [] s t) ∧
    (ra.toNat < s.nreg → s.nreg ≤ rb.toNat → ∃ t, exec (.addRegReg ra rb) s = .next t ∧
      t.status = .faulted (.regIndexOutOfRange rb .second) ∧ FrameExcept [] s t)

/-- The laws of the sum that the section on integer arithmetic of 42_add.md lists, over the instruction: it is
commutative, a register that holds 0 leaves the other operand, and the same register twice doubles it. -/
def Obligations.AddIsCommutativeWithZeroAndDoubles : Prop :=
  ∀ (ra rb : Byte) (s : State), s.Inv → ra.toNat < s.nreg → rb.toNat < s.nreg →
    exec (.addRegReg ra rb) s = exec (.addRegReg rb ra) s ∧
    (s.reg rb.toNat = 0#16 → ∃ t, exec (.addRegReg ra rb) s = .next t ∧ t.reg 1 = s.reg ra.toNat) ∧
    ∃ t, exec (.addRegReg ra ra) s = .next t ∧ (t.reg 1).toNat = 2 * (s.reg ra.toNat).toNat % 65536

/-! Whole-machine rules. -/

/-- Execution is strictly sequential (40_fetch_decode.md section 3): whatever the instruction, a step that completes
leaves `ip` at `A + 3`. -/
def Obligations.EveryCompletedStepAdvancesByThree : Prop :=
  ∀ s t : State, s.Inv → step s = .next t → t.status = .running → t.ip = trunc16 (s.ip.toNat + 3)

/-- No step writes MEM, NGPR or a register past `r2`, and a step changes at most one register beside `ip`
(20_memory.md section 6, the table of 10_state.md section 2). -/
def Obligations.NoStepWritesMemoryOrTheUpperRegisters : Prop :=
  ∀ s t : State, s.Inv → step s = .next t →
    t.mem = s.mem ∧ (∀ j, 4 ≤ j → t.reg j = s.reg j) ∧ ∃ d, d < 4 ∧ FrameExcept [0, d] s t

/-- What a faulting step leaves (40_fetch_decode.md section 2): `ip` advanced by 0, 1, 2 or 3, no destination written,
and nothing else changed but the status. -/
def Obligations.AFaultingStepWritesNoDestination : Prop :=
  ∀ (s t : State) (c : Cause), s.Inv → step s = .next t → t.status = .faulted c →
    ∃ k, k ≤ 3 ∧ t.ip = trunc16 (s.ip.toNat + k) ∧ FrameExcept [0] s t

/-- Which step raises which fault, complete (60_exceptions.md section 1). -/
def Obligations.TheFaultsOfAStepAreTheListedOnes : Prop :=
  ∀ (s t : State) (c : Cause), s.Inv → step s = .next t → t.status = .faulted c →
    let b := (trunc16 (s.ip.toNat + 1)).toNat
    let d := (trunc16 (s.ip.toNat + 2)).toNat
    (s.memSize ≤ s.ip.toNat ∧ c = .memOutOfBounds s.ip.toNat .byte) ∨
    (s.ip.toNat < s.memSize ∧ s.opcodeByte ∈ [0x10#8, 0x11#8] ∧ s.memSize ≤ b + 1 ∧ c = .memOutOfBounds b .word) ∨
    (s.ip.toNat < s.memSize ∧ s.opcodeByte = 0x12#8 ∧
      ((s.memSize ≤ b ∧ c = .memOutOfBounds b .byte) ∨
       (b < s.memSize ∧ s.memSize ≤ d ∧ c = .memOutOfBounds d .byte) ∨
       (b < s.memSize ∧ d < s.memSize ∧ s.nreg ≤ (s.mem.byteAt b).toNat ∧
         c = .regIndexOutOfRange (s.mem.byteAt b) .first) ∨
       (b < s.memSize ∧ d < s.memSize ∧ (s.mem.byteAt b).toNat < s.nreg ∧ s.nreg ≤ (s.mem.byteAt d).toNat ∧
         c = .regIndexOutOfRange (s.mem.byteAt d) .second))) ∨
    (s.ip.toNat < s.memSize ∧ s.opcodeByte ∉ [0x10#8, 0x11#8, 0x12#8] ∧ c = .illegalOpcode s.opcodeByte s.ip)

/-- Isolation (70_reset_and_hazards.md section 5): what a completed step computes depends on no byte of MEM outside its
own three, on no MEMSIZE that holds them, and on no register but `ip` and the two that an addition names. -/
def Obligations.AStepDependsOnlyOnItsOwnBytesAndOperands : Prop :=
  ∀ s s' : State, s.Inv → s'.Inv → s.status = .running → s'.status = .running →
    s'.ngpr = s.ngpr → s'.ip = s.ip →
    (∀ a ∈ s.nextAddrs, a < s.memSize ∧ a < s'.memSize ∧ s'.mem.byteAt a = s.mem.byteAt a) →
    (∀ ra rb, decode (s.nextAddrs.map s.mem.byteAt) = .ok (.addRegReg ra rb, []) →
      s'.reg ra.toNat = s.reg ra.toNat ∧ s'.reg rb.toNat = s.reg rb.toNat) →
    ∃ t t', step s = .next t ∧ step s' = .next t' ∧ t'.status = t.status ∧ t'.ip = t.ip ∧
      ∀ o, opcodeOfByte s.opcodeByte = some o → t.status = .running → t'.reg (destIndex o) = t.reg (destIndex o)

/-- R108: a fault is for ever. A faulted machine refuses every step with no state change, no run of it completes, no
transaction but the construction of the CPU changes its status, and that one brings it back. -/
def Obligations.AFaultIsPermanentUntilReset : Prop :=
  ∀ (s : State) (c : Cause), s.status = .faulted c →
    step s = .refused (.alreadyFaulted c) ∧ hostDo .step s = some (s, .refused) ∧
    (∀ n, runOf n s = s ∧ completes n s = false) ∧
    (∀ tr t r, tr ≠ .constructCpu → hostDo tr s = some (t, r) → t.status = .faulted c) ∧
    hostDo .readStatus s = some (s, .status (.faulted c)) ∧ hostDo .dump s = some (s, .text (dumpText s)) ∧
    (s.Inv → ∀ i, i < s.nreg → hostDo (.get (regName i)) s = some (s, .word (s.reg i))) ∧
    ∃ t, hostDo .constructCpu s = some (t, .done) ∧ t.status = .running

/-- The fault codes of the table in 60_exceptions.md section 1: 0 is no fault, and each cause has its own code. -/
def Obligations.FaultCodesAreTheTables : Prop :=
  (∀ st : Status, faultCode st = 0#3 ↔ st = .running) ∧
  ∀ (a : Nat) (n : Width) (name : String) (i opc : Byte) (k : OperandPos) (addr : Word),
    faultCode (.faulted (.memOutOfBounds a n)) = 1#3 ∧
    faultCode (.faulted (.unknownRegisterName name)) = 2#3 ∧
    faultCode (.faulted (.regIndexOutOfRange i k)) = 3#3 ∧
    faultCode (.faulted (.illegalOpcode opc addr)) = 4#3

/-! The invariant. -/

/-- The machine after power-on meets the invariant, for every legal NGPR and every MEMSIZE, and so does State.reset. -/
def Obligations.PowerOnMeetsTheInvariant : Prop :=
  State.reset.Inv ∧ ∀ ngpr memSize, Config.LegalNgpr ngpr → (State.powerOn ngpr memSize).Inv

/-- Every step keeps the invariant: NGPR legal, RF of `2 * NREG` bytes, both memories canonical and inside their
capacities, and a status record that says what 60_exceptions.md section 1 says it means. -/
def Obligations.EveryStepKeepsTheInvariant : Prop :=
  ∀ s t : State, s.Inv → step s = .next t → t.Inv

/-- Every transaction of the host keeps the invariant. -/
def Obligations.EveryTransactionKeepsTheInvariant : Prop :=
  ∀ (tr : Transaction) (s t : State) (r : Reply), s.Inv → hostDo tr s = some (t, r) → t.Inv

/-- The register file is never out of bounds (60_exceptions.md section 1): no step of a machine state stops on it, and
a running machine always gives a next state (40_fetch_decode.md section 2). -/
def Obligations.ARunningMachineAlwaysSteps : Prop :=
  ∀ s : State, s.Inv →
    (∀ f, step s ≠ .fault f) ∧ (s.status = .running → ∃ t, step s = .next t)

/-- A run of `n` steps under HostQuiet completes exactly when the state it leaves is running, and a run of `m + n` steps
is a run of `n` after a run of `m` (40_fetch_decode.md section 5). -/
def Obligations.RunsCompleteExactlyWhenTheyEndRunning : Prop :=
  ∀ (m n : Nat) (s : State), s.Inv →
    (completes n s = true ↔ (runOf n s).status = .running) ∧ runOf (m + n) s = runOf n (runOf m s) ∧ (runOf n s).Inv

/-! Reset (spec/70_reset_and_hazards.md, spec/10_state.md R28). -/

/-- R28: after construction every register is 0 and reads as 0, every byte of RF is 0, the status is running and MEM is
as the host left it; after creation every byte of a memory is 0. -/
def Obligations.ResetLeavesZeroRegistersAndARunningStatus : Prop :=
  (∀ cap a, (Memory.create cap).cap = cap ∧ (Memory.create cap).byteAt a = 0#8) ∧
  ∀ (ngpr : Nat) (mem : Memory),
    (State.construct ngpr mem).status = .running ∧ (State.construct ngpr mem).mem = mem ∧
    (State.construct ngpr mem).rf.cap = 2 * (ngpr + 2) ∧
    (∀ x, (State.construct ngpr mem).rf.byteAt x = 0#8) ∧
    (∀ j, (State.construct ngpr mem).reg j = 0#16) ∧
    ∀ (i : Byte) (k : OperandPos), i.toNat < ngpr + 2 →
      getByIndex i k (State.construct ngpr mem) = .ok 0#16 (State.construct ngpr mem)

/-- R92: constructing the CPU zeroes every register, sets the status running and leaves MEM alone; preloading before it
or after it gives the same machine. -/
def Obligations.ConstructingTheCpuIsTheReset : Prop :=
  ∀ s : State,
    (∃ t, hostDo .constructCpu s = some (t, .done) ∧ (∀ j, t.reg j = 0#16) ∧ t.ip = 0#16 ∧ t.status = .running ∧
      t.mem = s.mem ∧ t.ngpr = s.ngpr ∧ ResetState t) ∧
    ∀ (a : Nat) (b : Byte), a < s.memSize → ∃ t u v,
      hostDo (.preload a b) s = some (t, .done) ∧ hostDo .constructCpu t = some (u, .done) ∧
      hostDo .constructCpu s = some (v, .done) ∧ hostDo (.preload a b) v = some (u, .done)

/-- The first step of a machine with nothing preloaded (70_reset_and_hazards.md section 2): IllegalOpcode(0x00, 0) with
`ip` 1, or with no memory at all MemOutOfBounds(0, 1) with `ip` 0. -/
def Obligations.AnEmptyMachineFaultsAtItsFirstStep : Prop :=
  ∀ ngpr memSize : Nat, Config.LegalNgpr ngpr →
    (1 ≤ memSize → ∃ t, step (State.powerOn ngpr memSize) = .next t ∧
      t.status = .faulted (.illegalOpcode 0#8 0#16) ∧ t.ip = 1#16) ∧
    (memSize = 0 → ∃ t, step (State.powerOn ngpr memSize) = .next t ∧
      t.status = .faulted (.memOutOfBounds 0 .byte) ∧ t.ip = 0#16)

/-- Stepping past the end of a program of `L` bytes that zero bytes follow (70_reset_and_hazards.md section 2):
IllegalOpcode(0x00, L) inside MEM, MemOutOfBounds(L, 1) at its end. -/
def Obligations.SteppingPastTheProgramFaults : Prop :=
  ∀ (s : State) (p : List Byte), s.Inv → NoFault s → ZeroElsewhere p 0 s → s.ip.toNat = p.length →
    (p.length < s.memSize → ∃ t, step s = .next t ∧ t.status = .faulted (.illegalOpcode 0#8 s.ip) ∧
      t.ip = trunc16 (p.length + 1) ∧ FrameExcept [0] s t) ∧
    (s.memSize ≤ p.length → ∃ t, step s = .next t ∧ t.status = .faulted (.memOutOfBounds p.length .byte) ∧
      FrameExcept [] s t)

/-! The interface to the host (spec/43_host_interface.md). -/

/-- R91: a preload inside MEM writes that byte and nothing else, raises no fault and leaves the status; outside MEM
there is no such transaction; reading a byte back has no effect. -/
def Obligations.PreloadWritesOneByteOfMemory : Prop :=
  ∀ (s : State) (a : Nat) (b : Byte),
    (s.memSize ≤ a → hostDo (.preload a b) s = none ∧ hostDo (.readBack a) s = none) ∧
    (a < s.memSize → hostDo (.readBack a) s = some (s, .byte (s.mem.byteAt a)) ∧
      ∃ t, hostDo (.preload a b) s = some (t, .done) ∧ t.mem.cap = s.mem.cap ∧ t.mem.byteAt a = b ∧
        (∀ x, x ≠ a → t.mem.byteAt x = s.mem.byteAt x) ∧ t.rf = s.rf ∧ t.ngpr = s.ngpr ∧ t.status = s.status)

/-- Fetch coherence (20_memory.md section 9): a byte preloaded at `ip` between two steps is the opcode that the next
fetch returns. -/
def Obligations.AFetchSeesAPreloadedByte : Prop :=
  ∀ (s : State) (b : Byte), s.Inv → s.ip.toNat < s.memSize →
    ∃ t u, hostDo (.preload s.ip.toNat b) s = some (t, .done) ∧ fetch t = .ok b u ∧
      u.ip = trunc16 (s.ip.toNat + 1)

/-- R95: the text of the dump, line by line; it reads every register and changes nothing; `hex4` prints exactly four
digits, all lower-case hexadecimal, that write the value. -/
def Obligations.TheDumpPrintsEveryRegister : Prop :=
  (∀ s : State, hostDo .dump s = some (s, .text
    (String.join ((List.range s.nreg).map fun i => regName i ++ ": 0x" ++ hex4 (s.reg i) ++ "\n") ++ "\n"))) ∧
  ∀ v : Word, (hex4 v).length = 4 ∧ (∀ ch ∈ (hex4 v).toList, ch ∈ "0123456789abcdef".toList) ∧
    hexValue (hex4 v) = v.toNat

/-- R96: the status readout returns the latch and changes nothing; nor does any other transaction that only reads. -/
def Obligations.ReadingTransactionsChangeNothing : Prop :=
  (∀ s : State, hostDo .readStatus s = some (s, .status s.status)) ∧
  ∀ (tr : Transaction) (s t : State) (r : Reply),
    (tr = .readStatus ∨ tr = .dump ∨ (∃ a, tr = .readBack a) ∨ ∃ name, tr = .get name) →
    hostDo tr s = some (t, r) → t = s

/-- R93's three answers: a step transaction is a step, and replies that it completed, faulted with the cause, or was
refused with no state change. -/
def Obligations.AStepTransactionSaysHowItEnded : Prop :=
  ∀ s : State, s.Inv →
    (∀ t, step s = .next t → t.status = .running → hostDo .step s = some (t, .completed)) ∧
    (∀ t c, step s = .next t → t.status = .faulted c → hostDo .step s = some (t, .faulted c)) ∧
    (∀ c, s.status = .faulted c → hostDo .step s = some (s, .refused)) ∧
    ∃ t r, hostDo .step s = some (t, r)
end

