-- ==== Sys2Proof/Laws/Bytes.lean ====
section
/-! SUPPORT. Small laws of the byte order and of the opcode map. -/

namespace Sys2Proof

@[simp] theorem hiByte_joinBytes (hi lo : Byte) : hiByte (joinBytes hi lo) = hi := by
  ext i h
  simp only [hiByte, joinBytes, BitVec.getElem_extractLsb', BitVec.getLsbD_append]
  simp [BitVec.getLsbD_eq_getElem h]

@[simp] theorem loByte_joinBytes (hi lo : Byte) : loByte (joinBytes hi lo) = lo := by
  ext i h
  simp only [loByte, joinBytes, BitVec.getElem_extractLsb', BitVec.getLsbD_append]
  simp [h]

@[simp] theorem joinBytes_hiByte_loByte (w : Word) : joinBytes (hiByte w) (loByte w) = w := by
  apply BitVec.eq_of_getLsbD_eq
  intro i h
  simp only [hiByte, loByte, joinBytes, BitVec.getLsbD_append, BitVec.getLsbD_extractLsb']
  by_cases h8 : i < 8
  · simp [h8]
  · have h1 : i - 8 < 8 := by omega
    have h2 : 8 + (i - 8) = i := by omega
    simp [h8, h1, h2]

/-- The reading of `hi :: lo` that R7 gives: `hi * 256 + lo`. -/
theorem joinBytes_toNat (hi lo : Byte) : (joinBytes hi lo).toNat = hi.toNat * 256 + lo.toNat := by
  have hl : lo.toNat < 2 ^ 8 := lo.isLt
  simp only [joinBytes, BitVec.toNat_append]
  rw [← Nat.shiftLeft_add_eq_or_of_lt hl, Nat.shiftLeft_eq]

/-- `w[15:8]` as a number. -/
theorem hiByte_toNat (w : Word) : (hiByte w).toNat = w.toNat / 256 := by
  have h := joinBytes_toNat (hiByte w) (loByte w)
  have hlo : (loByte w).toNat < 256 := (loByte w).isLt
  rw [joinBytes_hiByte_loByte] at h
  omega

/-- `w[7:0]` as a number. -/
theorem loByte_toNat (w : Word) : (loByte w).toNat = w.toNat % 256 := by
  have h := joinBytes_toNat (hiByte w) (loByte w)
  have hlo : (loByte w).toNat < 256 := (loByte w).isLt
  rw [joinBytes_hiByte_loByte] at h
  omega

@[simp] theorem opcodeOfByte_byteOfOpcode (o : Opcode) : opcodeOfByte (byteOfOpcode o) = some o := by
  cases o <;> decide

/-- Only the byte of an opcode stands for it. -/
theorem byteOfOpcode_of_opcodeOfByte {b : Byte} {o : Opcode} (h : opcodeOfByte b = some o) : b = byteOfOpcode o := by
  unfold opcodeOfByte at h
  split at h
  · cases h; assumption
  · split at h
    · cases h; assumption
    · split at h
      · cases h; assumption
      · cases h

end Sys2Proof
end

