-- ==== Sys2Proof/Laws/Memory.lean ====
section
/-! SUPPORT. Laws of the Memory component: read after write, the frame of a write, the canonical form, and that equal
reads are equal memories. -/

namespace Sys2Proof.Machine

/-! Cells. -/

theorem readCells_dropCell (a x : Nat) (cells : List Host.Cell) :
    readCells x (dropCell a cells) = if x = a then 0#8 else readCells x cells := by
  induction cells with
  | nil => simp [dropCell, readCells]
  | cons c rest ih =>
    unfold dropCell
    by_cases hc : c.1 = a
    · rw [if_pos hc, ih]
      by_cases hx : x = a
      · rw [if_pos hx, if_pos hx]
      · have hcx : ¬ c.1 = x := fun e => hx (e.symm.trans hc)
        simp only [readCells, hx, hcx, if_false]
    · rw [if_neg hc]
      simp only [readCells, ih]
      by_cases hcx : c.1 = x
      · have hx : ¬ x = a := fun e => hc (hcx.trans e)
        simp only [hcx, hx, if_true, if_false]
      · simp only [hcx, if_false]

theorem not_mem_dropCell (a : Nat) (cells : List Host.Cell) : ∀ c ∈ dropCell a cells, c.1 ≠ a := by
  induction cells with
  | nil => simp [dropCell]
  | cons c rest ih =>
    by_cases hc : c.1 = a
    · simpa [dropCell, hc] using ih
    · simpa [dropCell, hc] using ih

theorem readCells_insertCell (a x : Nat) (b : Byte) (cells : List Host.Cell) (hne : ∀ c ∈ cells, c.1 ≠ a) :
    readCells x (insertCell a b cells) = if x = a then b else readCells x cells := by
  induction cells with
  | nil =>
    by_cases hx : x = a
    · simp [insertCell, readCells, hx]
    · have hx' : ¬ a = x := fun e => hx e.symm
      simp [insertCell, readCells, hx, hx']
  | cons c rest ih =>
    have hc : c.1 ≠ a := hne c (by simp)
    have ih := ih fun c' h' => hne c' (by simp [h'])
    unfold insertCell
    split
    · by_cases hx : x = a
      · simp [readCells, hx]
      · have hx' : ¬ a = x := fun e => hx e.symm
        simp [readCells, hx, hx']
    · simp only [readCells, ih]
      by_cases hcx : c.1 = x
      · have hx : ¬ x = a := fun e => hc (hcx.trans e)
        simp only [hcx, hx, if_true, if_false]
      · simp only [hcx, if_false]

/-! Bytes. -/

/-- Read after write, with the frame: a poke changes the byte it names and no other. -/
@[simp] theorem Memory.byteAt_poke (m : Memory) (a x : Nat) (b : Byte) :
    (m.poke a b).byteAt x = if x = a then b else m.byteAt x := by
  by_cases hb : b = 0#8
  · simp [Memory.poke, Memory.byteAt, hb, readCells_dropCell]
  · simp only [Memory.poke, Memory.byteAt, hb, if_false,
      readCells_insertCell a x b _ (not_mem_dropCell a m.cells), readCells_dropCell]
    split <;> rfl

@[simp] theorem Memory.poke_cap (m : Memory) (a : Nat) (b : Byte) : (m.poke a b).cap = m.cap := rfl

@[simp] theorem Memory.pokeWord_cap (m : Memory) (a : Nat) (w : Word) : (m.pokeWord a w).cap = m.cap := rfl

/-- A 16-bit write puts the high byte at the lower address and changes no third byte (R34). -/
theorem Memory.byteAt_pokeWord (m : Memory) (a x : Nat) (w : Word) :
    (m.pokeWord a w).byteAt x = if x = a then hiByte w else if x = a + 1 then loByte w else m.byteAt x := by
  simp only [Memory.pokeWord, Memory.byteAt_poke]
  by_cases h1 : x = a + 1
  · have : ¬ x = a := by omega
    simp [h1]
  · simp [h1]

@[simp] theorem Memory.wordAt_pokeWord (m : Memory) (a : Nat) (w : Word) : (m.pokeWord a w).wordAt a = w := by
  simp [Memory.wordAt, Memory.byteAt_pokeWord]

theorem Memory.wordAt_pokeWord_disjoint (m : Memory) {a x : Nat} (w : Word) (h : x + 1 < a ∨ a + 1 < x) :
    (m.pokeWord a w).wordAt x = m.wordAt x := by
  have h1 : ¬ x = a := by omega
  have h2 : ¬ x = a + 1 := by omega
  have h3 : ¬ x + 1 = a := by omega
  simp [Memory.wordAt, Memory.byteAt_pokeWord, h1, h2, h3]

@[simp] theorem Memory.byteAt_create (cap a : Nat) : (Memory.create cap).byteAt a = 0 := rfl

@[simp] theorem Memory.create_cap (cap : Nat) : (Memory.create cap).cap = cap := rfl

/-! The canonical form. -/

@[simp] theorem Memory.wf_create (cap : Nat) : (Memory.create cap).wf = true := rfl

theorem cellsWf_cons {cap lo : Nat} {c : Host.Cell} {rest : List Host.Cell} :
    cellsWf cap lo (c :: rest) = true ↔ lo ≤ c.1 ∧ c.1 < cap ∧ c.2 ≠ 0#8 ∧ cellsWf cap (c.1 + 1) rest = true := by
  simp [cellsWf, and_assoc]

theorem cellsWf_weaken {cap lo lo' : Nat} (h : lo' ≤ lo) {cells : List Host.Cell} (hw : cellsWf cap lo cells = true) :
    cellsWf cap lo' cells = true := by
  cases cells with
  | nil => rfl
  | cons c rest =>
    rw [cellsWf_cons] at hw ⊢
    exact ⟨by omega, hw.2⟩

theorem cellsWf_dropCell {cap : Nat} (a : Nat) {lo : Nat} {cells : List Host.Cell}
    (hw : cellsWf cap lo cells = true) : cellsWf cap lo (dropCell a cells) = true := by
  induction cells generalizing lo with
  | nil => rfl
  | cons c rest ih =>
    rw [cellsWf_cons] at hw
    unfold dropCell
    split
    · exact ih (cellsWf_weaken (by omega) hw.2.2.2)
    · exact cellsWf_cons.2 ⟨hw.1, hw.2.1, hw.2.2.1, ih hw.2.2.2⟩

theorem cellsWf_insertCell {cap a : Nat} {b : Byte} (hb : b ≠ 0#8) (ha : a < cap) {lo : Nat} (hlo : lo ≤ a)
    {cells : List Host.Cell} (hw : cellsWf cap lo cells = true) (hne : ∀ c ∈ cells, c.1 ≠ a) :
    cellsWf cap lo (insertCell a b cells) = true := by
  induction cells generalizing lo with
  | nil => exact cellsWf_cons.2 ⟨hlo, ha, hb, rfl⟩
  | cons c rest ih =>
    have hc : c.1 ≠ a := hne c (by simp)
    rw [cellsWf_cons] at hw
    unfold insertCell
    split
    · exact cellsWf_cons.2 ⟨hlo, ha, hb, cellsWf_cons.2 ⟨by omega, hw.2⟩⟩
    · exact cellsWf_cons.2 ⟨hw.1, hw.2.1, hw.2.2.1, ih (by omega) hw.2.2.2 fun c' h' => hne c' (by simp [h'])⟩

/-- A poke inside the buffer keeps the canonical form. -/
theorem Memory.wf_poke {m : Memory} {a : Nat} (b : Byte) (hw : m.wf = true) (ha : a < m.cap) :
    (m.poke a b).wf = true := by
  have hd : cellsWf m.cap 0 (dropCell a m.cells) = true := cellsWf_dropCell a hw
  by_cases hb : b = 0#8
  · simpa [Memory.poke, Memory.wf, hb] using hd
  · simpa [Memory.poke, Memory.wf, hb] using
      cellsWf_insertCell hb ha (Nat.zero_le a) hd (not_mem_dropCell a m.cells)

/-- A 16-bit write inside the buffer keeps the canonical form. -/
theorem Memory.wf_pokeWord {m : Memory} {a : Nat} (w : Word) (hw : m.wf = true) (ha : a + 1 < m.cap) :
    (m.pokeWord a w).wf = true :=
  Memory.wf_poke _ (Memory.wf_poke _ hw (by omega)) ha

/-- Every memory operation keeps the canonical form and the capacity: the 8-bit write. -/
theorem Memory.wf_write8 {m m' : Memory} {a : Nat} {b : Byte} (hw : m.wf = true) (h : m.write8 a b = .ok m') :
    m'.wf = true ∧ m'.cap = m.cap := by
  unfold Memory.write8 at h
  split at h
  · cases h
  · cases h; exact ⟨Memory.wf_poke b hw (by omega), rfl⟩

/-- Every memory operation keeps the canonical form and the capacity: the 16-bit write. -/
theorem Memory.wf_write16 {m m' : Memory} {a : Nat} {w : Word} (hw : m.wf = true) (h : m.write16 a w = .ok m') :
    m'.wf = true ∧ m'.cap = m.cap := by
  unfold Memory.write16 at h
  split at h
  · cases h
  · cases h; exact ⟨Memory.wf_pokeWord w hw (by omega), rfl⟩

/-- In canonical form nothing is listed below the starting address. -/
theorem readCells_eq_zero_of_cellsWf {cap lo a : Nat} {cells : List Host.Cell} (hw : cellsWf cap lo cells = true)
    (ha : a < lo) : readCells a cells = 0#8 := by
  induction cells generalizing lo with
  | nil => rfl
  | cons c rest ih =>
    rw [cellsWf_cons] at hw
    have hc : ¬ c.1 = a := by omega
    simpa [readCells, hc] using ih hw.2.2.2 (by omega)

/-- In canonical form every byte outside the buffer reads 0x00. -/
theorem readCells_eq_zero_of_cap_le {cap lo a : Nat} {cells : List Host.Cell} (hw : cellsWf cap lo cells = true)
    (ha : cap ≤ a) : readCells a cells = 0#8 := by
  induction cells generalizing lo with
  | nil => rfl
  | cons c rest ih =>
    rw [cellsWf_cons] at hw
    have hc : ¬ c.1 = a := by omega
    simpa [readCells, hc] using ih hw.2.2.2

theorem cells_ext_of_cellsWf {cap cap' lo : Nat} {cells cells' : List Host.Cell} (hw : cellsWf cap lo cells = true)
    (hw' : cellsWf cap' lo cells' = true) (h : ∀ a, readCells a cells = readCells a cells') : cells = cells' := by
  induction cells generalizing lo cells' with
  | nil =>
    cases cells' with
    | nil => rfl
    | cons c' rest' => exact absurd (by simpa [readCells] using (h c'.1).symm) (cellsWf_cons.1 hw').2.2.1
  | cons c rest ih =>
    rw [cellsWf_cons] at hw
    cases cells' with
    | nil => exact absurd (by simpa [readCells] using h c.1) hw.2.2.1
    | cons c' rest' =>
      rw [cellsWf_cons] at hw'
      have heq : c'.1 = c.1 := by
        rcases Nat.lt_trichotomy c.1 c'.1 with hlt | heq | hgt
        · have h1 : ¬ c'.1 = c.1 := by omega
          have := h c.1
          simp only [readCells, h1, if_true, if_false] at this
          exact absurd (this.trans (readCells_eq_zero_of_cellsWf hw'.2.2.2 (by omega))) hw.2.2.1
        · exact heq.symm
        · have h1 : ¬ c.1 = c'.1 := by omega
          have := h c'.1
          simp only [readCells, h1, if_true, if_false] at this
          exact absurd (this.symm.trans (readCells_eq_zero_of_cellsWf hw.2.2.2 (by omega))) hw'.2.2.1
      have hval : c.2 = c'.2 := by simpa [readCells, heq] using h c.1
      have hcc : c = c' := Prod.ext heq.symm hval
      subst hcc
      refine congrArg _ (ih hw.2.2.2 hw'.2.2.2 fun a => ?_)
      by_cases hac : c.1 = a
      · rw [readCells_eq_zero_of_cellsWf hw.2.2.2 (a := a) (by omega),
          readCells_eq_zero_of_cellsWf hw'.2.2.2 (a := a) (by omega)]
      · simpa [readCells, hac] using h a

/-- Equal memories are equal data: two canonical memories of one capacity that read alike are the same. -/
theorem Memory.ext_of_wf {m m' : Memory} (hw : m.wf = true) (hw' : m'.wf = true) (hc : m.cap = m'.cap)
    (h : ∀ a, m.byteAt a = m'.byteAt a) : m = m' := by
  cases m; cases m'
  cases hc
  simpa using cells_ext_of_cellsWf hw hw' h

/-- A later write to the same word hides the earlier one. -/
theorem Memory.pokeWord_pokeWord {m : Memory} {a : Nat} (v w : Word) (hw : m.wf = true) (ha : a + 1 < m.cap) :
    (m.pokeWord a v).pokeWord a w = m.pokeWord a w := by
  refine Memory.ext_of_wf (Memory.wf_pokeWord w (Memory.wf_pokeWord v hw ha) ha) (Memory.wf_pokeWord w hw ha) rfl
    fun x => ?_
  simp only [Memory.byteAt_pokeWord]
  split <;> [rfl; (split <;> rfl)]

end Sys2Proof.Machine
end

