-- ==== Sys2Proof/Laws/State.lean ====
section
/-! SUPPORT. One lemma per field per update of the state, so that no later proof unfolds a record update. -/

namespace Sys2Proof.Machine

variable (s : State) (i : Nat) (v : Word) (m : Memory) (st : Status)

@[simp] theorem withReg_ngpr : (s.withReg i v).ngpr = s.ngpr := rfl
@[simp] theorem withReg_mem : (s.withReg i v).mem = s.mem := rfl
@[simp] theorem withReg_rf_cap : (s.withReg i v).rf.cap = s.rf.cap := rfl
@[simp] theorem withReg_status : (s.withReg i v).status = s.status := rfl
@[simp] theorem withReg_nreg : (s.withReg i v).nreg = s.nreg := rfl
@[simp] theorem withReg_memSize : (s.withReg i v).memSize = s.memSize := rfl

@[simp] theorem withStatus_ngpr : (s.withStatus st).ngpr = s.ngpr := rfl
@[simp] theorem withStatus_mem : (s.withStatus st).mem = s.mem := rfl
@[simp] theorem withStatus_rf : (s.withStatus st).rf = s.rf := rfl
@[simp] theorem withStatus_status : (s.withStatus st).status = st := rfl
@[simp] theorem withStatus_nreg : (s.withStatus st).nreg = s.nreg := rfl
@[simp] theorem withStatus_memSize : (s.withStatus st).memSize = s.memSize := rfl
@[simp] theorem withStatus_reg : (s.withStatus st).reg i = s.reg i := rfl
@[simp] theorem withStatus_ip : (s.withStatus st).ip = s.ip := rfl

@[simp] theorem withMem_ngpr : (s.withMem m).ngpr = s.ngpr := rfl
@[simp] theorem withMem_mem : (s.withMem m).mem = m := rfl
@[simp] theorem withMem_rf : (s.withMem m).rf = s.rf := rfl
@[simp] theorem withMem_status : (s.withMem m).status = s.status := rfl
@[simp] theorem withMem_nreg : (s.withMem m).nreg = s.nreg := rfl
@[simp] theorem withMem_memSize : (s.withMem m).memSize = m.cap := rfl
@[simp] theorem withMem_reg : (s.withMem m).reg i = s.reg i := rfl
@[simp] theorem withMem_ip : (s.withMem m).ip = s.ip := rfl

end Sys2Proof.Machine
end

