-- ==== Sys2Proof/Laws/Registers.lean ====
section
/-! SUPPORT. Laws of the register accessors, of `raise`, and of the invariant under their updates. -/

namespace Sys2Proof.Machine

/-! Words. -/

@[simp] theorem trunc16_toNat (n : Nat) : (trunc16 n).toNat = n % 65536 := by simp [trunc16]

@[simp] theorem trunc16_toNat_self (w : Word) : trunc16 w.toNat = w := by simp [trunc16]

/-- Advancing a wrapped value is advancing the value and then wrapping. -/
@[simp] theorem trunc16_mod_add (n k : Nat) : trunc16 (n % 65536 + k) = trunc16 (n + k) := by
  apply BitVec.eq_of_toNat_eq
  simp

/-- The ALU's sum as the sum of words, which wraps (R87). -/
theorem addWrap_eq_add (a b : Word) : addWrap a b = a + b := by
  apply BitVec.eq_of_toNat_eq
  simp [addWrap, BitVec.toNat_add]

theorem addWrap_toNat (a b : Word) : (addWrap a b).toNat = (a.toNat + b.toNat) % 65536 := by simp [addWrap]

/-! The plain view and update of a register. -/

/-- Read after write, with the frame: writing one register changes no other (R17). -/
@[simp] theorem reg_withReg (s : State) (i j : Nat) (v : Word) :
    (s.withReg i v).reg j = if j = i then v else s.reg j := by
  by_cases h : j = i
  · subst h; simp [State.reg, State.withReg]
  · have : 2 * j + 1 < 2 * i ∨ 2 * i + 1 < 2 * j := by omega
    simp [State.reg, State.withReg, Memory.wordAt_pokeWord_disjoint _ _ this, h]

/-- After construction every register reads 0 (R28). -/
@[simp] theorem reg_construct (ngpr i : Nat) (m : Memory) : (State.construct ngpr m).reg i = 0#16 := by
  have h : joinBytes 0#8 0#8 = 0#16 := by decide
  exact h

@[simp] theorem ip_construct (ngpr : Nat) (m : Memory) : (State.construct ngpr m).ip = 0#16 := reg_construct ngpr 0 m

theorem ip_def (s : State) : s.ip = s.reg 0 := rfl

@[simp] theorem ip_withReg (s : State) (i : Nat) (v : Word) :
    (s.withReg i v).ip = if i = 0 then v else s.ip := by
  simp only [State.ip, ipIndex, reg_withReg, eq_comm]

/-! The accessors. -/

theorem readReg_eq {s : State} {i : Nat} (h : 2 * i + 1 < s.rf.cap) : readReg i s = .ok (s.reg i) s := by
  have h' : ¬ s.rf.cap ≤ 2 * i + 1 := by omega
  simp [readReg, rfRead, Memory.read16, h', State.reg]

theorem readReg_stuck {s : State} {i : Nat} (h : s.rf.cap ≤ 2 * i + 1) :
    readReg i s = .stuck (.registerFileOutOfBounds (2 * i)) := by
  simp [readReg, rfRead, Memory.read16, h]

theorem writeReg_eq {s : State} {i : Nat} {v : Word} (h : 2 * i + 1 < s.rf.cap) :
    writeReg i v s = .ok () (s.withReg i v) := by
  have h' : ¬ s.rf.cap ≤ 2 * i + 1 := by omega
  simp [writeReg, rfWrite, Memory.write16, h', State.withReg]

theorem writeReg_stuck {s : State} {i : Nat} {v : Word} (h : s.rf.cap ≤ 2 * i + 1) :
    writeReg i v s = .stuck (.registerFileOutOfBounds (2 * i)) := by
  simp [writeReg, rfWrite, Memory.write16, h]

/-- R14, the index that names no register: it is raised, and RF is not read. -/
theorem getByIndex_raised {s : State} {i : Byte} (k : OperandPos) (h : s.nreg ≤ i.toNat) :
    getByIndex i k s = raise (.regIndexOutOfRange i k) s := by
  simp [getByIndex, h]

/-- R14, the index that names a register. -/
theorem getByIndex_ok {s : State} {i : Byte} (k : OperandPos) (hc : s.rf.cap = 2 * s.nreg) (h : i.toNat < s.nreg) :
    getByIndex i k s = .ok (s.reg i.toNat) s := by
  have h' : ¬ s.nreg ≤ i.toNat := by omega
  rw [getByIndex, if_neg h', readReg_eq (by omega)]

@[simp] theorem Res.bind_ok {α β : Type} (a : α) (s : State) (f : α → State → Res β) :
    (Res.ok a s).bind f = f a s := rfl

@[simp] theorem Res.bind_raised {α β : Type} (s : State) (f : α → State → Res β) :
    (Res.raised s : Res α).bind f = .raised s := rfl

@[simp] theorem Res.bind_stuck {α β : Type} (e : Fault) (f : α → State → Res β) :
    (Res.stuck e : Res α).bind f = .stuck e := rfl

@[simp] theorem raise_bind {α β : Type} (c : Cause) (s : State) (f : α → State → Res β) :
    (raise c s : Res α).bind f = raise c s := rfl

@[simp] theorem Res.outcome_ok (s : State) : (Res.ok () s).outcome = .next s := rfl

@[simp] theorem raise_outcome (c : Cause) (s : State) :
    (raise c s : Res Unit).outcome = .next (s.withStatus (.faulted c)) := rfl

/-! The status record (R101). -/

theorem statusOk_memOutOfBounds {s : State} {a : Nat} {n : Width} :
    statusOk (s.withStatus (.faulted (.memOutOfBounds a n))) = true ↔
      a < 65536 ∧ s.memSize < a + widthBytes n := by
  simp only [statusOk, withStatus_status, Bool.and_eq_true, decide_eq_true_eq]
  exact Iff.rfl

theorem statusOk_regIndexOutOfRange {s : State} {i : Byte} {k : OperandPos} :
    statusOk (s.withStatus (.faulted (.regIndexOutOfRange i k))) = true ↔ s.nreg ≤ i.toNat := by
  simp only [statusOk, withStatus_status, decide_eq_true_eq]
  exact Iff.rfl

theorem statusOk_illegalOpcode {s : State} {opc : Byte} {addr : Word} :
    statusOk (s.withStatus (.faulted (.illegalOpcode opc addr))) = true ↔ opcodeOfByte opc = none := by
  simp only [statusOk, withStatus_status, decide_eq_true_eq]

/-! The invariant. -/

namespace State.Inv

variable {s : State}

theorem two_le_ngpr (h : s.Inv) : 2 ≤ s.ngpr := h.1.1

theorem four_le_nreg (h : s.Inv) : 4 ≤ s.nreg := by
  have := h.1.1
  simp only [State.nreg, Config.nregOf]; omega

theorem nreg_le (h : s.Inv) : s.nreg ≤ 256 := by
  have := h.1.2
  simp only [State.nreg, Config.nregOf]; omega

theorem rf_cap (h : s.Inv) : s.rf.cap = 2 * s.nreg := h.2.1

theorem reg_fits (h : s.Inv) {i : Nat} (hi : i < s.nreg) : 2 * i + 1 < s.rf.cap := by
  have := h.rf_cap; omega

/-- The registers that the core uses by name exist on every machine (R15). -/
theorem named_fits (h : s.Inv) {i : Nat} (hi : i < 4) : 2 * i + 1 < s.rf.cap :=
  h.reg_fits (by have := h.four_le_nreg; omega)

theorem withReg (h : s.Inv) {i : Nat} (hi : i < s.nreg) (v : Word) : (s.withReg i v).Inv :=
  ⟨h.1, h.2.1, h.2.2.1, Memory.wf_pokeWord v h.2.2.2.1 (h.reg_fits hi), h.2.2.2.2⟩

/-- Setting the status keeps the invariant when the record it sets is true. -/
theorem withStatus (h : s.Inv) {st : Status} (hs : statusOk (s.withStatus st) = true) :
    (s.withStatus st).Inv := ⟨h.1, h.2.1, h.2.2.1, h.2.2.2.1, hs⟩

end State.Inv

/-- A later write to the same register hides the earlier one. -/
theorem withReg_withReg {s : State} (h : s.Inv) {i : Nat} (hi : i < s.nreg) (v w : Word) :
    (s.withReg i v).withReg i w = s.withReg i w := by
  have := Memory.pokeWord_pokeWord v w h.2.2.2.1 (h.reg_fits hi)
  simp only [State.withReg, this]

/-! Frames. -/

theorem FrameExcept.refl (written : List Nat) (s : State) : FrameExcept written s s :=
  ⟨rfl, rfl, rfl, fun _ => rfl, fun _ _ => rfl⟩

theorem FrameExcept.withReg {written : List Nat} {s t : State} (h : FrameExcept written s t) {i : Nat}
    (hi : i ∈ written) (v : Word) : FrameExcept written s (t.withReg i v) :=
  ⟨h.1, h.2.1, h.2.2.1, h.2.2.2.1, fun j hj => by
    have : j ≠ i := fun e => hj (e ▸ hi)
    simpa [this] using h.2.2.2.2 j hj⟩

theorem FrameExcept.withStatus {written : List Nat} {s t : State} (h : FrameExcept written s t) (st : Status) :
    FrameExcept written s (t.withStatus st) := h

end Sys2Proof.Machine
end

