-- ==== Sys2Proof/Laws/Fetch.lean ====
section
/-! SUPPORT. What the fetch unit does on a state of the machine: one equation per operation and case. -/

namespace Sys2Proof.Machine

variable {s : State}

@[simp] theorem advance_ip (n : Nat) : (s.advance n).ip = trunc16 (s.ip.toNat + n) := by
  simp [State.advance]

@[simp] theorem advance_mem (n : Nat) : (s.advance n).mem = s.mem := rfl
@[simp] theorem advance_memSize (n : Nat) : (s.advance n).memSize = s.memSize := rfl
@[simp] theorem advance_ngpr (n : Nat) : (s.advance n).ngpr = s.ngpr := rfl
@[simp] theorem advance_nreg (n : Nat) : (s.advance n).nreg = s.nreg := rfl
@[simp] theorem advance_status (n : Nat) : (s.advance n).status = s.status := rfl

theorem advance_reg {n j : Nat} (hj : j ≠ 0) : (s.advance n).reg j = s.reg j := by simp [State.advance, hj]

theorem State.Inv.advance (h : s.Inv) (n : Nat) : (s.advance n).Inv := h.withReg (by have := h.four_le_nreg; omega) _

/-- Two fetches in a row advance `ip` by the sum of what each advances. -/
theorem advance_advance (h : s.Inv) (m n : Nat) : (s.advance m).advance n = s.advance (m + n) := by
  have h0 : 0 < s.nreg := by have := h.four_le_nreg; omega
  unfold State.advance
  rw [withReg_withReg h h0]
  simp [Nat.add_assoc]

theorem advance_frame (n : Nat) : FrameExcept [0] s (s.advance n) := (FrameExcept.refl [0] s).withReg (by simp) _

/-! `fetch` (R65) and `fetch16` (R66). -/

theorem fetch_raised (h : s.Inv) (ho : s.memSize ≤ s.ip.toNat) :
    fetch s = raise (.memOutOfBounds s.ip.toNat .byte) s := by
  have ho' : s.mem.cap ≤ (s.reg ipIndex).toNat := ho
  simp [fetch, readReg_eq (h.named_fits (i := ipIndex) (by decide)), memRead8, Memory.read8, ho', State.ip]

theorem fetch_ok (h : s.Inv) (hi : s.ip.toNat < s.memSize) :
    fetch s = .ok (s.mem.byteAt s.ip.toNat) (s.advance 1) := by
  have ho' : ¬ s.mem.cap ≤ (s.reg ipIndex).toNat := Nat.not_le.2 hi
  have hf := h.named_fits (i := ipIndex) (by decide)
  simp [fetch, readReg_eq hf, memRead8, Memory.read8, ho', State.ip, writeReg_eq hf, State.advance]
  rfl

theorem fetch16_raised (h : s.Inv) (ho : s.memSize ≤ s.ip.toNat + 1) :
    fetch16 s = raise (.memOutOfBounds s.ip.toNat .word) s := by
  have ho' : s.mem.cap ≤ (s.reg ipIndex).toNat + 1 := ho
  simp [fetch16, readReg_eq (h.named_fits (i := ipIndex) (by decide)), memRead16, Memory.read16, ho', State.ip]

theorem fetch16_ok (h : s.Inv) (hi : s.ip.toNat + 1 < s.memSize) :
    fetch16 s = .ok (s.mem.wordAt s.ip.toNat) (s.advance 2) := by
  have ho' : ¬ s.mem.cap ≤ (s.reg ipIndex).toNat + 1 := Nat.not_le.2 hi
  have hf := h.named_fits (i := ipIndex) (by decide)
  simp [fetch16, readReg_eq hf, memRead16, Memory.read16, ho', State.ip, writeReg_eq hf, State.advance]
  rfl

/-- The illegal-opcode arm after the opcode's fetch names the address the opcode was fetched from (R69). -/
theorem illegalOpcode_advance {α : Type} (h : s.Inv) (opc : Byte) :
    (illegalOpcode opc (s.advance 1) : Res α) = raise (.illegalOpcode opc s.ip) (s.advance 1) := by
  have hip : (s.advance 1).reg 0 - 1 = s.ip := by
    change (s.advance 1).ip - 1 = s.ip
    apply BitVec.eq_of_toNat_eq
    simp only [advance_ip, BitVec.toNat_sub, trunc16_toNat]
    have hlt : s.ip.toNat < 65536 := s.ip.isLt
    have h1 : (1 : Word).toNat = 1 := rfl
    rw [h1]
    omega
  rw [illegalOpcode, readReg_eq ((h.advance 1).named_fits (i := ipIndex) (by decide)), Res.bind_ok]
  exact congrArg (fun a => raise (.illegalOpcode opc a) (s.advance 1)) hip

/-! Fetching an instruction (R68, R73), case by case. `s.opcodeByte` is the byte at `ip`. -/

theorem fetchInstr_raised (h : s.Inv) (ho : s.memSize ≤ s.ip.toNat) :
    fetchInstr s = raise (.memOutOfBounds s.ip.toNat .byte) s := by
  rw [fetchInstr, fetch_raised h ho, raise_bind]

theorem fetchInstr_illegal (h : s.Inv) (hi : s.ip.toNat < s.memSize) (hop : opcodeOfByte s.opcodeByte = none) :
    fetchInstr s = raise (.illegalOpcode s.opcodeByte s.ip) (s.advance 1) := by
  have hop' : opcodeOfByte (s.mem.byteAt s.ip.toNat) = none := hop
  rw [fetchInstr, fetch_ok h hi, Res.bind_ok, hop']
  exact illegalOpcode_advance h s.opcodeByte

theorem fetchInstr_movLitR1 (h : s.Inv) (hi : s.ip.toNat < s.memSize)
    (hop : opcodeOfByte s.opcodeByte = some .movLitR1) :
    fetchInstr s = (fetch16 (s.advance 1)).bind fun lit t => .ok (.movLitR1 lit) t := by
  have hop' : opcodeOfByte (s.mem.byteAt s.ip.toNat) = some .movLitR1 := hop
  rw [fetchInstr, fetch_ok h hi, Res.bind_ok, hop']

theorem fetchInstr_movLitR2 (h : s.Inv) (hi : s.ip.toNat < s.memSize)
    (hop : opcodeOfByte s.opcodeByte = some .movLitR2) :
    fetchInstr s = (fetch16 (s.advance 1)).bind fun lit t => .ok (.movLitR2 lit) t := by
  have hop' : opcodeOfByte (s.mem.byteAt s.ip.toNat) = some .movLitR2 := hop
  rw [fetchInstr, fetch_ok h hi, Res.bind_ok, hop']

theorem fetchInstr_addRegReg (h : s.Inv) (hi : s.ip.toNat < s.memSize)
    (hop : opcodeOfByte s.opcodeByte = some .addRegReg) :
    fetchInstr s = (fetch (s.advance 1)).bind fun ra t => (fetch t).bind fun rb t => .ok (.addRegReg ra rb) t := by
  have hop' : opcodeOfByte (s.mem.byteAt s.ip.toNat) = some .addRegReg := hop
  rw [fetchInstr, fetch_ok h hi, Res.bind_ok, hop']

/-- The literal fetch of an instruction at `ip` (R82): it starts at `trunc16(ip + 1)`. -/
theorem fetch16_advance_ok (h : s.Inv) (hi : (trunc16 (s.ip.toNat + 1)).toNat + 1 < s.memSize) :
    fetch16 (s.advance 1) = .ok (s.mem.wordAt (trunc16 (s.ip.toNat + 1)).toNat) (s.advance 3) := by
  rw [fetch16_ok (h.advance 1) (by simpa using hi), advance_advance h, advance_ip, advance_mem]

theorem fetch16_advance_raised (h : s.Inv) (ho : s.memSize ≤ (trunc16 (s.ip.toNat + 1)).toNat + 1) :
    fetch16 (s.advance 1) = raise (.memOutOfBounds (trunc16 (s.ip.toNat + 1)).toNat .word) (s.advance 1) := by
  rw [fetch16_raised (h.advance 1) (by simpa using ho), advance_ip]

/-- The fetch of operand byte `n` of an instruction at `ip` (R86): it is at `trunc16(ip + n)`. -/
theorem fetch_advance_ok (h : s.Inv) (n : Nat) (hi : (trunc16 (s.ip.toNat + n)).toNat < s.memSize) :
    fetch (s.advance n) = .ok (s.mem.byteAt (trunc16 (s.ip.toNat + n)).toNat) (s.advance (n + 1)) := by
  rw [fetch_ok (h.advance n) (by simpa using hi), advance_advance h, advance_ip, advance_mem]

theorem fetch_advance_raised (h : s.Inv) (n : Nat) (ho : s.memSize ≤ (trunc16 (s.ip.toNat + n)).toNat) :
    fetch (s.advance n) = raise (.memOutOfBounds (trunc16 (s.ip.toNat + n)).toNat .byte) (s.advance n) := by
  rw [fetch_raised (h.advance n) (by simpa using ho), advance_ip]

end Sys2Proof.Machine
end

