-- ==== Sys2Proof/Laws/PerInstr.lean ====
section
/-! SUPPORT. Statements about every instruction as syntax, one lemma per constructor. -/

namespace Sys2Proof.Laws.EncodedShape

/-- An instruction is three bytes, and its first byte is the byte of its opcode (spec/30_encoding.md R50, R56, R60). -/
def Statement (i : Instr) : Prop :=
  (encode i).length = 3 ∧ ∃ b, (encode i).head? = some b ∧ opcodeOfByte b = some (opcodeOf i)

theorem movLitR1 (lit : Word) : Statement (.movLitR1 lit) := ⟨rfl, _, rfl, opcodeOfByte_byteOfOpcode .movLitR1⟩

theorem movLitR2 (lit : Word) : Statement (.movLitR2 lit) := ⟨rfl, _, rfl, opcodeOfByte_byteOfOpcode .movLitR2⟩

theorem addRegReg (ra rb : Byte) : Statement (.addRegReg ra rb) := ⟨rfl, _, rfl, opcodeOfByte_byteOfOpcode .addRegReg⟩

end Sys2Proof.Laws.EncodedShape
end

