-- ==== Sys2Proof/Laws/Step.lean ====
section
/-! SUPPORT. What a step can do, said once: the cases of fetching an instruction, of a meaning, and of a step. -/

namespace Sys2Proof.Machine

variable {s t : State}

/-- Writing a register with what it holds changes nothing. -/
theorem withReg_reg (h : s.Inv) {i : Nat} (hi : i < s.nreg) : s.withReg i (s.reg i) = s := by
  have hrf : s.rf.pokeWord (2 * i) (s.reg i) = s.rf := by
    refine Memory.ext_of_wf (Memory.wf_pokeWord _ h.2.2.2.1 (h.reg_fits hi)) h.2.2.2.1 rfl fun x => ?_
    rw [Memory.byteAt_pokeWord]
    split
    · next hx => simp [hx, State.reg, Memory.wordAt]
    · split
      · next hx => simp [hx, State.reg, Memory.wordAt]
      · rfl
  simp only [State.withReg, hrf]

theorem advance_zero (h : s.Inv) : s.advance 0 = s := by
  have : trunc16 (s.ip.toNat + 0) = s.reg 0 := by simp [ip_def]
  rw [State.advance, this, withReg_reg h (by have := h.four_le_nreg; omega)]

theorem ip_lt (s : State) : s.ip.toNat < 65536 := s.ip.isLt

/-- Fetching an instruction ends with `ip` past its three bytes, or raises a fault whose record is true with `ip` past
the bytes whose fetch completed (R72, R109). -/
theorem fetchInstr_cases (h : s.Inv) :
    (∃ i, fetchInstr s = .ok i (s.advance 3)) ∨
    ∃ c k, k ≤ 3 ∧ fetchInstr s = raise c (s.advance k) ∧ statusOk (s.withStatus (.faulted c)) = true := by
  have hw : ∀ n, (trunc16 n).toNat < 65536 := fun n => (trunc16 n).isLt
  have hlt := ip_lt s
  by_cases hi : s.ip.toNat < s.memSize
  · cases hop : opcodeOfByte s.opcodeByte with
    | none =>
      exact .inr ⟨_, 1, by omega, fetchInstr_illegal h hi hop, statusOk_illegalOpcode.2 hop⟩
    | some o =>
      cases o with
      | movLitR1 =>
        by_cases h2 : (trunc16 (s.ip.toNat + 1)).toNat + 1 < s.memSize
        · exact .inl ⟨_, by rw [fetchInstr_movLitR1 h hi hop, fetch16_advance_ok h h2, Res.bind_ok]⟩
        · refine .inr ⟨_, 1, by omega, by
            rw [fetchInstr_movLitR1 h hi hop, fetch16_advance_raised h (by omega), raise_bind], ?_⟩
          have := hw (s.ip.toNat + 1)
          refine statusOk_memOutOfBounds.2 ?_
          simp only [widthBytes]
          omega
      | movLitR2 =>
        by_cases h2 : (trunc16 (s.ip.toNat + 1)).toNat + 1 < s.memSize
        · exact .inl ⟨_, by rw [fetchInstr_movLitR2 h hi hop, fetch16_advance_ok h h2, Res.bind_ok]⟩
        · refine .inr ⟨_, 1, by omega, by
            rw [fetchInstr_movLitR2 h hi hop, fetch16_advance_raised h (by omega), raise_bind], ?_⟩
          have := hw (s.ip.toNat + 1)
          refine statusOk_memOutOfBounds.2 ?_
          simp only [widthBytes]
          omega
      | addRegReg =>
        rw [fetchInstr_addRegReg h hi hop]
        by_cases h1 : (trunc16 (s.ip.toNat + 1)).toNat < s.memSize
        · rw [fetch_advance_ok h 1 h1, Res.bind_ok]
          by_cases h2 : (trunc16 (s.ip.toNat + 2)).toNat < s.memSize
          · exact .inl ⟨_, by rw [fetch_advance_ok h 2 h2, Res.bind_ok]⟩
          · refine .inr ⟨_, 2, by omega, by rw [fetch_advance_raised h 2 (by omega), raise_bind], ?_⟩
            have := hw (s.ip.toNat + 2)
            refine statusOk_memOutOfBounds.2 ?_
            simp only [widthBytes]
            omega
        · refine .inr ⟨_, 1, by omega, by rw [fetch_advance_raised h 1 (by omega), raise_bind], ?_⟩
          have := hw (s.ip.toNat + 1)
          refine statusOk_memOutOfBounds.2 ?_
          simp only [widthBytes]
          omega
  · refine .inr ⟨_, 0, by omega, by rw [fetchInstr_raised h (by omega), advance_zero h], ?_⟩
    refine statusOk_memOutOfBounds.2 ?_
    simp only [widthBytes]
    omega

/-- A meaning writes its one destination, or raises a bad index; it never stops. -/
theorem exec_cases (i : Instr) (h : s.Inv) :
    (∃ v, exec i s = .next (s.withReg (destIndex (opcodeOf i)) v)) ∨
    ∃ b k, s.nreg ≤ b.toNat ∧ exec i s = .next (s.withStatus (.faulted (.regIndexOutOfRange b k))) := by
  cases i with
  | movLitR1 lit => exact .inl ⟨lit, by rw [exec, execMovLitR1, writeReg_eq (h.named_fits (by decide))]; rfl⟩
  | movLitR2 lit => exact .inl ⟨lit, by rw [exec, execMovLitR2, writeReg_eq (h.named_fits (by decide))]; rfl⟩
  | addRegReg ra rb =>
    simp only [exec, execAddRegReg]
    by_cases ha : ra.toNat < s.nreg
    · rw [getByIndex_ok _ h.rf_cap ha, Res.bind_ok]
      by_cases hb : rb.toNat < s.nreg
      · rw [getByIndex_ok _ h.rf_cap hb, Res.bind_ok, writeReg_eq (h.named_fits (by decide))]
        exact .inl ⟨_, rfl⟩
      · rw [getByIndex_raised _ (by omega), raise_bind, raise_outcome]
        exact .inr ⟨rb, .second, by omega, rfl⟩
    · rw [getByIndex_raised _ (by omega), raise_bind, raise_outcome]
      exact .inr ⟨ra, .first, by omega, rfl⟩

theorem destIndex_lt (o : Opcode) : 0 < destIndex o ∧ destIndex o < 4 := by cases o <;> decide

theorem step_faulted {c : Cause} (hs : s.status = .faulted c) : step s = .refused (.alreadyFaulted c) := by
  simp [step, hs]

theorem step_running (hs : s.status = .running) {i : Instr} (hf : fetchInstr s = .ok i t) : step s = exec i t := by
  simp [step, hs, hf]

theorem step_raised (hs : s.status = .running) {c : Cause} (hf : fetchInstr s = raise c t) :
    step s = .next (t.withStatus (.faulted c)) := by
  simp [step, hs, hf, raise]

/-- Everything a step of a running machine can do: complete, with `ip` past the instruction and one destination written,
or leave `ip` past the bytes it fetched and a fault whose record is true. -/
theorem step_cases (h : s.Inv) (hs : s.status = .running) :
    (∃ d v, 0 < d ∧ d < 4 ∧ step s = .next ((s.advance 3).withReg d v)) ∨
    ∃ c k, k ≤ 3 ∧ step s = .next ((s.advance k).withStatus (.faulted c)) ∧
      statusOk (s.withStatus (.faulted c)) = true := by
  rcases fetchInstr_cases h with ⟨i, hf⟩ | ⟨c, k, hk, hf, hok⟩
  · rw [step_running hs hf]
    rcases exec_cases i (h.advance 3) with ⟨v, he⟩ | ⟨b, k, hb, he⟩
    · exact .inl ⟨_, v, (destIndex_lt _).1, (destIndex_lt _).2, he⟩
    · exact .inr ⟨_, 3, by omega, he, statusOk_regIndexOutOfRange.2 hb⟩
  · exact .inr ⟨c, k, hk, step_raised hs hf, hok⟩

/-- A step that gives a next state was a step of a running machine. -/
theorem running_of_step_next (h : step s = .next t) : s.status = .running := by
  cases hs : s.status with
  | running => rfl
  | faulted c => rw [step_faulted hs] at h; cases h

end Sys2Proof.Machine
end

