-- ==== Sys2Proof/Tests/Slice0.lean ====
section
/-! SUPPORT. Tests, with expected values from spec/95_test_vectors.md (the vector's name stands in each comment), and for
every statement of Certificates/Slice0/Obligations.lean with hypotheses a witness that meets them, at the boundary values
of its clauses. -/

namespace Sys2Proof.Tests

open Sys2Proof.Machine

/-- A machine just reset with `bytes` preloaded from `base` and `ip` set by the host. -/
def boot (ngpr memSize : Nat) (ip : Word) (base : Nat) (bytes : List Byte) : State :=
  (preloadAll ((List.range bytes.length).map (base + ·)) bytes (State.powerOn ngpr memSize)).withReg 0 ip

/-- The next state of an outcome. -/
def after (o : Host.Outcome State Fault Refusal) : Option State :=
  match o with
  | .next t => some t
  | .fault _ => none
  | .refused _ => none

/-- What a test looks at after a step: `ip`, `acc`, `r1`, `r2` and the status. -/
def seen (o : Host.Outcome State Fault Refusal) : Option (Nat × Nat × Nat × Nat × Status) :=
  (after o).map fun t => (t.ip.toNat, (t.reg 1).toNat, (t.reg 2).toNat, (t.reg 3).toNat, t.status)

/-! Well-formedness: an index that names no register, at either operand (95 A14, A15). -/

theorem test_wellFormed_refuses_first : (Instr.addRegReg 10#8 2#8).wellFormed 10 = false := by decide
theorem test_wellFormed_refuses_second : (Instr.addRegReg 2#8 10#8).wellFormed 10 = false := by decide
theorem test_wellFormed_last_index : (Instr.addRegReg 9#8 9#8).wellFormed 10 = true := by decide

/-! Decoding: words written out bit by bit from the patterns of R53. -/

-- 00010000 LLLLLLLL llllllll with lit = 0x0001: the high byte comes first (95 V3).
theorem test_decode_movLitR1 : decodeTableWord 24 0b000100000000000000000001 = some (.movLitR1 0x0001#16) := by decide
-- 00010001 LLLLLLLL llllllll with lit = 0xABCD (95 V5).
theorem test_decode_movLitR2 : decodeTableWord 24 0b000100011010101111001101 = some (.movLitR2 0xABCD#16) := by decide
-- 00010010 aaaaaaaa bbbbbbbb with a = 2, b = 3 (95 P1).
theorem test_decode_addRegReg : decodeTableWord 24 0b000100100000001000000011 = some (.addRegReg 2#8 3#8) := by decide
-- 0x00, 0x0F, 0x13 and 0xFF are reserved (95 I1 to I4).
theorem test_decode_reserved :
    [0x00#8, 0x0F#8, 0x13#8, 0xFF#8].map (fun b => decodeFirst [b, 2#8, 3#8]) = [none, none, none, none] := by decide

/-! Memory primitives (95 M3, M6, M8, M11, M12). -/

theorem test_write16_is_big_endian :
    (((Memory.create 256).pokeWord 10 0x1234#16).byteAt 10, ((Memory.create 256).pokeWord 10 0x1234#16).byteAt 11) =
      (0x12#8, 0x34#8) := by decide
theorem test_overlapping_writes :
    (((Memory.create 256).pokeWord 10 0x1234#16).pokeWord 11 0xABCD#16).wordAt 10 = 0x12AB#16 := by decide
theorem test_read16_at_the_last_byte :
    (Memory.create 256).read16 255 = .error (.memOutOfBounds 255 .word) := by decide
theorem test_read16_does_not_wrap :
    (Memory.create 65536).read16 0xFFFF = .error (.memOutOfBounds 65535 .word) := by decide
theorem test_read16_past_65536 :
    (((Memory.create 65537).poke 0xFFFF 0x12#8).poke 0x10000 0x34#8).read16 0xFFFF = .ok 0x1234#16 := by decide

/-! One step of each instruction. -/

-- 95 V9: MEMSIZE = 2, the literal is not partly loaded.
theorem test_movLitR1_faults_whole :
    seen (step (boot 8 2 0#16 0 [0x10#8, 0x12#8])) = some (1, 0, 0, 0, .faulted (.memOutOfBounds 1 .word)) := by decide
-- 95 V14: MEMSIZE = 65537, the literal's low byte is at 65536 and ip wraps to 1.
theorem test_movLitR1_past_the_top :
    seen (step (boot 8 65537 0xFFFE#16 0xFFFE [0x10#8, 0x12#8, 0x34#8])) = some (1, 0, 0x1234, 0, .running) := by decide
-- 95 V5.
theorem test_movLitR2 :
    seen (step (boot 8 256 0#16 0 [0x11#8, 0xAB#8, 0xCD#8])) = some (3, 0, 0, 0xABCD, .running) := by decide
-- 95 V13: the opcode at 0xFFFF and the literal at 0 and 1.
theorem test_movLitR2_wraps :
    seen (step ((boot 8 65536 0xFFFF#16 0 [0xDE#8, 0xAD#8]).withMem
      ((boot 8 65536 0xFFFF#16 0 [0xDE#8, 0xAD#8]).mem.poke 0xFFFF 0x11#8))) =
      some (2, 0, 0, 0xDEAD, .running) := by decide
-- 95 A10: ip as both sources reads 3.
theorem test_addRegReg_reads_next_ip :
    seen (step (boot 8 256 0#16 0 [0x12#8, 0#8, 0#8])) = some (3, 6, 0, 0, .running) := by decide
-- 95 A2: 0xFFFF + 0x0002 wraps to 0x0001.
theorem test_addRegReg_wraps :
    seen (step (((boot 8 256 0#16 0 [0x12#8, 2#8, 3#8]).withReg 2 0xFFFF#16).withReg 3 2#16)) =
      some (3, 1, 0xFFFF, 2, .running) := by decide

/-! Fetching, faults and the refused step. -/

-- 95 A16 and A20: the first bad index is named; a memory fault comes before any index check.
theorem test_addRegReg_fault_order :
    ((after (step (boot 8 256 0#16 0 [0x12#8, 0x0A#8, 0xFF#8]))).map State.status,
     (after (step (boot 8 2 0#16 0 [0x12#8, 0xFF#8]))).map State.status) =
    (some (.faulted (.regIndexOutOfRange 10#8 .first)), some (.faulted (.memOutOfBounds 2 .byte))) := by decide
-- 95 I5: an illegal opcode at 0xFFFF leaves ip = 0.
theorem test_illegal_opcode_at_the_top :
    seen (step (boot 8 65536 0xFFFF#16 0 [])) = some (0, 0, 0, 0, .faulted (.illegalOpcode 0#8 0xFFFF#16)) := by decide
-- 95 I1 and I6: a fresh machine faults at its first step, and then every step is refused.
theorem test_fresh_machine_faults :
    (runOf 3 State.reset).status = .faulted (.illegalOpcode 0#8 0#16) ∧ (runOf 3 State.reset).ip = 1#16 := by decide
-- The preloaded row runs as the first instruction after reset, and where its bytes wrap at the top of memory.
theorem test_withFetchWord_at_reset :
    seen (step (State.reset.withFetchWord 24 0x11ABCD)) = some (3, 0, 0, 0xABCD, .running) := by decide
theorem test_withFetchWord_past_the_top :
    seen (step ((boot 8 65537 0xFFFE#16 0 []).withFetchWord 24 0x101234)) = some (1, 0, 0x1234, 0, .running) := by decide
theorem test_withFetchWord_wraps :
    seen (step ((boot 8 65536 0xFFFE#16 0 []).withFetchWord 24 0x120003)) = some (1, 1, 0, 0, .running) := by decide

/-! The host's port. -/

-- 95 S1 and S2: set truncates; a name outside the set is refused and changes nothing.
theorem test_set_truncates :
    ((hostDo (.set "r1" 0x12345) State.reset).bind fun p => hostDo (.get "r1") p.1).map Prod.snd =
      some (.word 0x2345#16) := by decide
theorem test_unknown_names :
    ["r9", "R1", "pc", "", "r0", "IP"].map (fun n => hostDo (.set n 1) State.reset) =
      ["r9", "R1", "pc", "", "r0", "IP"].map fun n => some (State.reset, .error (.unknownRegisterName n)) := by decide
-- 95 D2.
theorem test_dump :
    dumpText ((((State.powerOn 2 256).withReg 0 9#16).withReg 1 0xBE01#16).withReg 2 0x1234#16 |>.withReg 3 0xABCD#16) =
      "ip: 0x0009\nacc: 0xbe01\nr1: 0x1234\nr2: 0xabcd\n\n" := by decide

/-! Witnesses. Each shows a state and operands that meet all hypotheses of the statement it is named after, one theorem
for each clause that has hypotheses of its own. -/

theorem witness_DecodedBytesAreTheEncoding :
    decode [0x12#8, 0xFF#8, 0x00#8, 0x7E#8] = .ok (.addRegReg 0xFF#8 0#8, [0x7E#8]) := by decide
theorem witness_ExactlyThreeOpcodesDecode :
    0x13#8 ∉ [0x10#8, 0x11#8, 0x12#8] ∧ 0x0F#8 ∉ [0x10#8, 0x11#8, 0x12#8] ∧ 0x12#8 ∈ [0x10#8, 0x11#8, 0x12#8] := by decide
theorem witness_EightBitReadIsBoundedAndPure :
    State.reset.memSize ≤ 256 ∧ 255 < State.reset.memSize ∧ (Memory.create 0).cap ≤ 0 ∧ 0 < (Memory.create 1).cap := by
  decide
theorem witness_SixteenBitReadIsBigEndian :
    State.reset.memSize ≤ 255 + 1 ∧ 254 + 1 < State.reset.memSize ∧ (Memory.create 1).cap ≤ 0 + 1 ∧
      0 + 1 < (Memory.create 2).cap := by decide
theorem witness_EightBitWriteChangesOneByte :
    State.reset.memSize ≤ 256 ∧ 255 < State.reset.memSize ∧ (Memory.create 0).cap ≤ 0 ∧ 0 < (Memory.create 1).cap ∧
      254 ≠ 255 := by decide
theorem witness_SixteenBitWriteIsBigEndian :
    State.reset.memSize ≤ 255 + 1 ∧ 254 + 1 < State.reset.memSize ∧ 253 ≠ 254 ∧ 253 ≠ 254 + 1 := by decide
theorem witness_ReadAfterWriteRoundTrips :
    (Memory.create 256).write16 254 0xBEEF#16 = .ok ((Memory.create 256).pokeWord 254 0xBEEF#16) ∧
    (Memory.create 256).write8 255 0xBE#8 = .ok ((Memory.create 256).poke 255 0xBE#8) := by decide
theorem witness_OutOfBoundsAccessesHaveNoPartialEffect :
    State.reset.memSize ≤ 256 ∧ State.reset.memSize ≤ 255 + 1 ∧ 255 < State.reset.memSize ∧
      254 + 1 < State.reset.memSize := by decide
theorem witness_RegistersAreBigEndianWordsOfTheirBackingMemory :
    State.reset.Inv ∧ 0 < State.reset.nreg ∧ 9 < State.reset.nreg ∧ (20 : Nat) ≠ 2 * 9 ∧ (20 : Nat) ≠ 2 * 9 + 1 := by
  decide
theorem witness_RegisterIndexIsCheckedBeforeTheRead :
    State.reset.Inv ∧ State.reset.nreg ≤ (10#8 : Byte).toNat ∧ (9#8 : Byte).toNat < State.reset.nreg := by decide
theorem witness_HostReachesRegistersByName :
    State.reset.Inv ∧ indexOfName State.reset.nreg "r9" = none ∧ indexOfName State.reset.nreg "r8" = some 9 ∧
      65791 % 65536 < State.reset.memSize := by decide
theorem witness_SetThenGetReturnsTheTruncatedValue :
    State.reset.Inv ∧
    hostDo (.set "acc" 0x1FFFF) State.reset = some (State.reset.withReg 1 0xFFFF#16, .done) ∧ "ip" ≠ "acc" := by decide
theorem witness_TheRegisterNamesAndSizesNeverChange :
    State.reset.Inv ∧ hostDo (.preload 255 1#8) State.reset =
      some (State.reset.withMem (State.reset.mem.poke 255 1#8), .done) := by decide
theorem witness_FetchReadsOneByteAndAdvances :
    (boot 8 256 256#16 0 []).Inv ∧ (boot 8 256 256#16 0 []).memSize ≤ (boot 8 256 256#16 0 []).ip.toNat ∧
    (boot 8 65536 0xFFFF#16 0 []).Inv ∧
      (boot 8 65536 0xFFFF#16 0 []).ip.toNat < (boot 8 65536 0xFFFF#16 0 []).memSize := by decide
theorem witness_Fetch16IsOneAccessAndAdvancesByTwo :
    (boot 8 65536 0xFFFF#16 0 []).Inv ∧
      (boot 8 65536 0xFFFF#16 0 []).memSize ≤ (boot 8 65536 0xFFFF#16 0 []).ip.toNat + 1 ∧
    (boot 8 65537 0xFFFF#16 0 []).Inv ∧
      (boot 8 65537 0xFFFF#16 0 []).ip.toNat + 1 < (boot 8 65537 0xFFFF#16 0 []).memSize := by decide

/-- The hypotheses that every statement about a step of an instruction at `ip` shares. -/
abbrev Running (s : State) (opc : Byte) : Prop :=
  s.Inv ∧ s.status = .running ∧ s.ip.toNat < s.memSize ∧ s.opcodeByte = opc

theorem witness_IllegalOpcodeFaultsAfterItsFetch :
    Running (boot 8 1 0#16 0 [0x13#8]) 0x13#8 ∧ 0x13#8 ∉ [0x10#8, 0x11#8, 0x12#8] := by decide
theorem witness_StepRunsTheDecodedInstruction :
    Running (boot 8 65537 0xFFFE#16 0xFFFE [0x10#8, 0x12#8, 0x34#8]) 0x10#8 ∧
    (∀ a ∈ (boot 8 65537 0xFFFE#16 0xFFFE [0x10#8, 0x12#8, 0x34#8]).nextAddrs, a < 65537) ∧
    decode ((boot 8 65537 0xFFFE#16 0xFFFE [0x10#8, 0x12#8, 0x34#8]).nextAddrs.map
      (boot 8 65537 0xFFFE#16 0xFFFE [0x10#8, 0x12#8, 0x34#8]).mem.byteAt) = .ok (.movLitR1 0x1234#16, []) := by decide
theorem witness_InstructionBytesFollowTheWrappedInstructionPointer :
    (boot 8 65536 0xFFFE#16 0xFFFE [0x12#8]).opcodeByte ∉ [0x10#8, 0x11#8] ∧
    opcodeOfByte (boot 8 65536 0xFFFE#16 0xFFFE [0x12#8]).opcodeByte ≠ none ∧
    (boot 8 65536 0xFFFF#16 0xFFFF [0x10#8]).ip ≠ 0xFFFE#16 ∧
    opcodeOfByte (boot 8 65536 0xFFFF#16 0xFFFF [0x10#8]).opcodeByte ≠ none ∧
    (boot 8 65536 0xFFFE#16 0xFFFE [0x11#8]).opcodeByte ∈ [0x10#8, 0x11#8] ∧
    (boot 8 65536 0xFFFE#16 0xFFFE [0x11#8]).ip = 0xFFFE#16 := by decide

theorem witness_ALoadedInstructionRuns :
    (boot 2 65536 0xFFFD#16 0xFFFD [0x12#8, 3#8, 0#8]).Inv ∧ NoFault (boot 2 65536 0xFFFD#16 0xFFFD [0x12#8, 3#8, 0#8]) ∧
    Loaded (encode (.addRegReg 3#8 0#8)) 0xFFFD (boot 2 65536 0xFFFD#16 0xFFFD [0x12#8, 3#8, 0#8]) ∧
    (boot 2 65536 0xFFFD#16 0xFFFD [0x12#8, 3#8, 0#8]).ip.toNat = 0xFFFD := by
  refine ⟨by decide, by decide, ⟨by decide, fun i h => ?_⟩, by decide⟩
  have key : ∀ k : Fin 3, (boot 2 65536 0xFFFD#16 0xFFFD [0x12#8, 3#8, 0#8]).mem.byteAt (0xFFFD + k.val) =
      [0x12#8, 3#8, 0#8][k] := by decide
  exact key ⟨i, h⟩

theorem witness_opcode_fetch_out_of_bounds :
    (boot 8 256 256#16 0 []).Inv ∧ (boot 8 256 256#16 0 []).status = .running ∧
    (boot 8 256 256#16 0 []).memSize ≤ (boot 8 256 256#16 0 []).ip.toNat := by decide
theorem witness_StepOfMovLitR1LoadsR1OrFaults :
    Running (boot 8 2 0#16 0 [0x10#8, 0x12#8]) 0x10#8 ∧ 2 ≤ (trunc16 (0 + 1)).toNat + 1 ∧
    Running (boot 8 3 0#16 0 [0x10#8, 0x12#8, 0x34#8]) 0x10#8 ∧ (trunc16 (0 + 1)).toNat + 1 < 3 ∧
    Running (boot 8 65536 0xFFFF#16 0xFFFF [0x10#8]) 0x10#8 ∧ (trunc16 (65535 + 1)).toNat + 1 < 65536 := by decide
theorem witness_StepOfMovLitR2LoadsR2OrFaults :
    Running (boot 8 2 0#16 0 [0x11#8, 0x12#8]) 0x11#8 ∧ 2 ≤ (trunc16 (0 + 1)).toNat + 1 ∧
    Running (boot 8 3 0#16 0 [0x11#8, 0x12#8, 0x34#8]) 0x11#8 ∧ (trunc16 (0 + 1)).toNat + 1 < 3 ∧
    Running (boot 8 65536 0xFFFE#16 0xFFFE [0x11#8]) 0x11#8 ∧ 65536 ≤ (trunc16 (65534 + 1)).toNat + 1 := by decide

theorem witness_StepOfAddRegRegSumsOrFaults_fetches :
    Running (boot 8 1 0#16 0 [0x12#8]) 0x12#8 ∧ 1 ≤ (trunc16 (0 + 1)).toNat ∧
    Running (boot 8 2 0#16 0 [0x12#8, 0xFF#8]) 0x12#8 ∧ (trunc16 (0 + 1)).toNat < 2 ∧ 2 ≤ (trunc16 (0 + 2)).toNat := by
  decide
theorem witness_StepOfAddRegRegSumsOrFaults_first_index :
    Running (boot 2 3 0#16 0 [0x12#8, 4#8, 3#8]) 0x12#8 ∧ (trunc16 (0 + 2)).toNat < 3 ∧
    (boot 2 3 0#16 0 [0x12#8, 4#8, 3#8]).nreg ≤ ((boot 2 3 0#16 0 [0x12#8, 4#8, 3#8]).mem.byteAt 1).toNat := by decide
theorem witness_StepOfAddRegRegSumsOrFaults_second_index :
    Running (boot 2 3 0#16 0 [0x12#8, 3#8, 4#8]) 0x12#8 ∧
    ((boot 2 3 0#16 0 [0x12#8, 3#8, 4#8]).mem.byteAt 1).toNat < (boot 2 3 0#16 0 [0x12#8, 3#8, 4#8]).nreg ∧
    (boot 2 3 0#16 0 [0x12#8, 3#8, 4#8]).nreg ≤ ((boot 2 3 0#16 0 [0x12#8, 3#8, 4#8]).mem.byteAt 2).toNat := by decide
theorem witness_StepOfAddRegRegSumsOrFaults_completes :
    Running (boot 254 3 0#16 0 [0x12#8, 255#8, 0#8]) 0x12#8 ∧
    ((boot 254 3 0#16 0 [0x12#8, 255#8, 0#8]).mem.byteAt 1).toNat < (boot 254 3 0#16 0 [0x12#8, 255#8, 0#8]).nreg ∧
    ((boot 254 3 0#16 0 [0x12#8, 255#8, 0#8]).mem.byteAt 2).toNat < (boot 254 3 0#16 0 [0x12#8, 255#8, 0#8]).nreg := by
  decide
theorem witness_AddReadsItsSourcesBeforeItWritesAcc :
    Running (boot 2 3 0#16 0 [0x12#8, 0#8, 3#8]) 0x12#8 ∧
    (∀ a ∈ (boot 2 3 0#16 0 [0x12#8, 0#8, 3#8]).nextAddrs, a < 3) ∧
    (boot 2 3 0#16 0 [0x12#8, 0#8, 3#8]).nextAddrs.map (boot 2 3 0#16 0 [0x12#8, 0#8, 3#8]).mem.byteAt =
      [0x12#8, 0#8, 3#8] ∧ (0#8 : Byte).toNat < 4 ∧ (3#8 : Byte).toNat < 4 := by decide

theorem witness_ExecMovLitCompletes : State.reset.Inv ∧ (State.powerOn 2 0).Inv ∧ (State.powerOn 254 0).Inv := by decide
theorem witness_ExecAddRegRegCompletesAndWritesOnlyAcc :
    State.reset.Inv ∧ (0#8 : Byte).toNat < State.reset.nreg ∧ (9#8 : Byte).toNat < State.reset.nreg := by decide
theorem witness_ExecAddRegRegFaultsOnTheFirstBadIndex :
    State.reset.Inv ∧ State.reset.nreg ≤ (10#8 : Byte).toNat ∧ (9#8 : Byte).toNat < State.reset.nreg ∧
      State.reset.nreg ≤ (255#8 : Byte).toNat := by decide
theorem witness_AddIsCommutativeWithZeroAndDoubles :
    (State.reset.withReg 2 0x8000#16).Inv ∧ (2#8 : Byte).toNat < State.reset.nreg ∧ (4#8 : Byte).toNat < State.reset.nreg ∧
    (State.reset.withReg 2 0x8000#16).reg 4 = 0#16 := by decide

/-- A step that completes and a step that faults, from states that meet the invariant: the hypotheses of the statements
about every step. -/
theorem witness_step_completes :
    (boot 8 256 0#16 0 [0x10#8, 0x12#8, 0x34#8]).Inv ∧
    (after (step (boot 8 256 0#16 0 [0x10#8, 0x12#8, 0x34#8]))).map State.status = some .running := by decide
theorem witness_step_faults :
    (boot 8 2 0#16 0 [0x12#8, 0x12#8]).Inv ∧
    (after (step (boot 8 2 0#16 0 [0x12#8, 0x12#8]))).map State.status =
      some (.faulted (.memOutOfBounds 2 .byte)) := by decide

/-- Two machines with different MEMSIZE, different bytes past the instruction and a different `acc`. -/
theorem witness_AStepDependsOnlyOnItsOwnBytesAndOperands :
    let s := boot 2 3 0#16 0 [0x12#8, 2#8, 3#8]
    let s' := (boot 2 9 0#16 0 [0x12#8, 2#8, 3#8, 0x7E#8]).withReg 1 5#16
    s.Inv ∧ s'.Inv ∧ s.status = .running ∧ s'.status = .running ∧ s'.ngpr = s.ngpr ∧ s'.ip = s.ip ∧
    (∀ a ∈ s.nextAddrs, a < s.memSize ∧ a < s'.memSize ∧ s'.mem.byteAt a = s.mem.byteAt a) ∧
    decode (s.nextAddrs.map s.mem.byteAt) = .ok (.addRegReg 2#8 3#8, []) ∧
    s'.reg 2 = s.reg 2 ∧ s'.reg 3 = s.reg 3 := by decide

theorem witness_AFaultIsPermanentUntilReset :
    (State.reset.withStatus (.faulted (.illegalOpcode 0#8 0#16))).Inv ∧
    (State.reset.withStatus (.faulted (.illegalOpcode 0#8 0#16))).status = .faulted (.illegalOpcode 0#8 0#16) ∧
    hostDo (.preload 0 1#8) (State.reset.withStatus (.faulted (.illegalOpcode 0#8 0#16))) ≠ none ∧
    9 < State.reset.nreg := by decide
theorem witness_PowerOnMeetsTheInvariant : Config.LegalNgpr 2 ∧ Config.LegalNgpr 254 := by decide
theorem witness_EveryTransactionKeepsTheInvariant :
    State.reset.Inv ∧ hostDo .step State.reset ≠ none ∧ hostDo .constructCpu State.reset ≠ none ∧
    hostDo (.preload 255 1#8) State.reset ≠ none ∧ hostDo (.set "r8" 65535) State.reset ≠ none := by decide
theorem witness_ARunningMachineAlwaysSteps : State.reset.Inv ∧ State.reset.status = .running := by decide
theorem witness_ResetLeavesZeroRegistersAndARunningStatus : (255#8 : Byte).toNat < 254 + 2 := by decide
theorem witness_ConstructingTheCpuIsTheReset : 255 < State.reset.memSize := by decide
theorem witness_AnEmptyMachineFaultsAtItsFirstStep : Config.LegalNgpr 8 ∧ 1 ≤ 1 ∧ (0 : Nat) = 0 := by decide
theorem witness_SteppingPastTheProgramFaults_inside :
    (boot 8 256 3#16 0 [0x10#8, 0#8, 1#8]).Inv ∧ NoFault (boot 8 256 3#16 0 [0x10#8, 0#8, 1#8]) ∧
    ZeroElsewhere [0x10#8, 0#8, 1#8] 0 (boot 8 256 3#16 0 [0x10#8, 0#8, 1#8]) ∧
    (boot 8 256 3#16 0 [0x10#8, 0#8, 1#8]).ip.toNat = 3 := by
  refine ⟨by decide, by decide, fun a _ h => ?_, by decide⟩
  have ha : 0 + 3 ≤ a := h.resolve_left (Nat.not_lt_zero a)
  have h0 : ¬ 0 = a := by omega
  have h2 : ¬ 2 = a := by omega
  change readCells a [(0, 0x10#8), (2, 1#8)] = 0#8
  simp [readCells, h0, h2]
theorem witness_SteppingPastTheProgramFaults_at_the_end :
    (boot 8 3 3#16 0 [0x10#8, 0#8, 1#8]).Inv ∧ NoFault (boot 8 3 3#16 0 [0x10#8, 0#8, 1#8]) ∧
    ZeroElsewhere [0x10#8, 0#8, 1#8] 0 (boot 8 3 3#16 0 [0x10#8, 0#8, 1#8]) ∧
    (boot 8 3 3#16 0 [0x10#8, 0#8, 1#8]).ip.toNat = 3 ∧ (boot 8 3 3#16 0 [0x10#8, 0#8, 1#8]).memSize ≤ 3 := by
  refine ⟨by decide, by decide, fun a hm h => ?_, by decide, by decide⟩
  have ha : 0 + 3 ≤ a := h.resolve_left (Nat.not_lt_zero a)
  have hm' : a < 3 := hm
  omega
theorem witness_PreloadWritesOneByteOfMemory : State.reset.memSize ≤ 256 ∧ 255 < State.reset.memSize ∧ 254 ≠ 255 := by
  decide
theorem witness_AFetchSeesAPreloadedByte :
    (boot 8 256 255#16 0 []).Inv ∧ (boot 8 256 255#16 0 []).ip.toNat < (boot 8 256 255#16 0 []).memSize := by decide
theorem witness_ReadingTransactionsChangeNothing :
    hostDo .readStatus State.reset ≠ none ∧ hostDo .dump State.reset ≠ none ∧ hostDo (.readBack 255) State.reset ≠ none ∧
    hostDo (.get "r8") State.reset ≠ none := by decide
theorem witness_AStepTransactionSaysHowItEnded :
    (hostDo .step (boot 8 256 0#16 0 [0x10#8, 0x12#8, 0x34#8])).map Prod.snd = some .completed ∧
    (hostDo .step State.reset).map Prod.snd = some (.faulted (.illegalOpcode 0#8 0#16)) ∧
    (hostDo .step (State.reset.withStatus (.faulted (.illegalOpcode 0#8 0#16)))).map Prod.snd = some .refused := by decide

end Sys2Proof.Tests
end

section
/-! SUPPORT. The names of the registers (spec/10_state.md R11, R15): every index has its own name, so a name is looked
up to the one index it belongs to. -/

namespace Sys2Proof.Machine

@[simp] theorem regName_zero : regName 0 = "ip" := rfl

@[simp] theorem regName_one : regName 1 = "acc" := rfl

@[simp] theorem regName_add_two (k : Nat) : regName (k + 2) = "r" ++ toString (k + 1) := rfl

/-- The name of a general-purpose register begins with `r`, so it is no text that begins with another letter. -/
theorem r_append_ne {w : String} (hw : w.toList.head? ≠ some 'r') (t : String) : "r" ++ t ≠ w := by
  rintro rfl
  exact hw (by simp)

/-- R11: no two indices share a name. -/
theorem regName_injective : Function.Injective regName
  | 0, 0, _ | 1, 1, _ => rfl
  | 0, 1, h | 1, 0, h => absurd h (by decide)
  | 0, _ + 2, h | 1, _ + 2, h => absurd h.symm (r_append_ne (by decide) _)
  | _ + 2, 0, h | _ + 2, 1, h => absurd h (r_append_ne (by decide) _)
  | m + 2, n + 2, h => by
    have hk : m + 1 = n + 1 := Nat.repr_injective ((String.append_right_inj "r").1 h)
    exact congrArg (· + 1) hk

theorem regName_of_indexOfName {nreg i : Nat} {name : String} (h : indexOfName nreg name = some i) :
    regName i = name := by
  simpa using List.find?_some h

theorem indexOfName_regName {nreg i : Nat} (hi : i < nreg) : indexOfName nreg (regName i) = some i := by
  cases hf : indexOfName nreg (regName i) with
  | none => exact absurd (List.find?_eq_none.1 hf i (List.mem_range.2 hi)) (by simp)
  | some j => rw [regName_injective (regName_of_indexOfName hf)]

theorem lt_of_indexOfName {nreg i : Nat} {name : String} (h : indexOfName nreg name = some i) : i < nreg :=
  List.mem_range.1 (List.mem_of_find?_eq_some h)

/-- The lookup of a name finds an index exactly when that index exists and the name is its own (R11, R15). -/
theorem indexOfName_eq_some_iff {nreg i : Nat} {name : String} :
    indexOfName nreg name = some i ↔ i < nreg ∧ regName i = name := by
  constructor
  · exact fun h => ⟨lt_of_indexOfName h, regName_of_indexOfName h⟩
  · rintro ⟨hi, rfl⟩
    exact indexOfName_regName hi

/-- Different names belong to different indices: there are no aliases (R11). -/
theorem indexOfName_ne {nreg i j : Nat} {name other : String} (hi : indexOfName nreg name = some i)
    (hj : indexOfName nreg other = some j) (hne : other ≠ name) : j ≠ i := by
  rintro rfl
  exact hne ((regName_of_indexOfName hj).symm.trans (regName_of_indexOfName hi))

end Sys2Proof.Machine
end

section
/-! SUPPORT. What the host's transactions do (spec/43_host_interface.md R90 to R98): an equation for each case of get and
set, and the ways in which a transaction can change the state, said once. -/

namespace Sys2Proof.Machine

variable {s t : State} {name : String} {value i : Nat} {r : Reply}

/-! Get and set (R94). -/

theorem hostGet_unknown (h : indexOfName s.nreg name = none) :
    hostGet name s = some (s, .error (.unknownRegisterName name)) := by
  simp [hostGet, resolveName, h]

theorem hostSet_unknown (h : indexOfName s.nreg name = none) :
    hostSet name value s = some (s, .error (.unknownRegisterName name)) := by
  simp [hostSet, resolveName, h]

theorem hostGet_known (hs : s.Inv) (h : indexOfName s.nreg name = some i) :
    hostGet name s = some (s, .word (s.reg i)) := by
  simp [hostGet, resolveName, h, readReg_eq (hs.reg_fits (lt_of_indexOfName h))]

theorem hostSet_known (hs : s.Inv) (h : indexOfName s.nreg name = some i) :
    hostSet name value s = some (s.withReg i (trunc16 value), .done) := by
  simp [hostSet, resolveName, h, writeReg_eq (hs.reg_fits (lt_of_indexOfName h))]

/-! The changes of state. -/

@[simp] theorem hostDo_get (name : String) (s : State) : hostDo (.get name) s = hostGet name s := rfl

@[simp] theorem hostDo_set (name : String) (value : Nat) (s : State) :
    hostDo (.set name value) s = hostSet name value s := rfl

/-- Reading a register changes nothing. -/
theorem state_of_readReg_ok {w : Word} (h : readReg i s = .ok w t) : t = s := by
  by_cases hi : 2 * i + 1 < s.rf.cap
  · rw [readReg_eq hi] at h; cases h; rfl
  · rw [readReg_stuck (by omega)] at h; cases h

/-- Writing a register is the plain update of it. -/
theorem state_of_writeReg_ok {v : Word} (h : writeReg i v s = .ok () t) : t = s.withReg i v := by
  by_cases hi : 2 * i + 1 < s.rf.cap
  · rw [writeReg_eq hi] at h; cases h; rfl
  · rw [writeReg_stuck (by omega)] at h; cases h

/-- Getting a register changes nothing (R94). -/
theorem hostGet_state (h : hostGet name s = some (t, r)) : t = s := by
  cases hn : indexOfName s.nreg name with
  | none => rw [hostGet_unknown hn] at h; cases h; rfl
  | some i =>
    simp only [hostGet, resolveName, hn] at h
    split at h
    case h_1 w u hu => cases h; exact state_of_readReg_ok hu
    case h_2 => cases h

/-- A set did not know its name and changed nothing, or found it and wrote the truncated value to its register (R94). -/
theorem hostSet_cases (h : hostSet name value s = some (t, r)) :
    (indexOfName s.nreg name = none ∧ t = s ∧ r = .error (.unknownRegisterName name)) ∨
    ∃ i, indexOfName s.nreg name = some i ∧ t = s.withReg i (trunc16 value) ∧ r = .done := by
  cases hn : indexOfName s.nreg name with
  | none => rw [hostSet_unknown hn] at h; cases h; exact .inl ⟨rfl, rfl, rfl⟩
  | some i =>
    simp only [hostSet, resolveName, hn] at h
    split at h
    case h_1 u hu => cases h; exact .inr ⟨i, rfl, state_of_writeReg_ok hu, rfl⟩
    case h_2 => cases h

/-- A step transaction is a step, or it was refused and changes nothing (R93). -/
theorem hostStep_cases (h : hostStep s = some (t, r)) : step s = .next t ∨ t = s := by
  unfold hostStep at h
  split at h
  case h_1 u hu => cases h; exact .inl hu
  case h_2 => cases h; exact .inr rfl
  case h_3 => cases h

/-- A preload happens only inside MEM (R91). -/
theorem preload_eq_some_iff {a : Nat} {b : Byte} :
    s.preload a b = some t ↔ a < s.memSize ∧ t = s.withMem (s.mem.poke a b) := by
  unfold State.preload
  split
  · next ha => simp [Nat.not_lt.2 ha]
  · next ha => simp [Nat.not_le.1 ha, eq_comm]

/-- Everything a transaction of the host can do to the state: nothing, one byte of MEM inside its bounds, one register,
the construction of the CPU, or a step (the table of R98). -/
theorem hostDo_cases {tr : Transaction} (h : hostDo tr s = some (t, r)) :
    t = s ∨ (∃ a b, a < s.memSize ∧ t = s.withMem (s.mem.poke a b)) ∨ (∃ i v, i < s.nreg ∧ t = s.withReg i v) ∨
    t = State.construct s.ngpr s.mem ∨ step s = .next t := by
  cases tr with
  | preload a b =>
    obtain ⟨u, hu, hut⟩ := Option.map_eq_some_iff.1 h
    cases hut
    exact .inr (.inl ⟨a, b, preload_eq_some_iff.1 hu⟩)
  | readBack a =>
    simp only [hostDo] at h
    split at h <;> cases h
    exact .inl rfl
  | constructCpu => cases h; exact .inr (.inr (.inr (.inl rfl)))
  | step => exact (hostStep_cases h).elim (fun hst => .inr (.inr (.inr (.inr hst)))) .inl
  | get name => exact .inl (hostGet_state h)
  | set name value =>
    rcases hostSet_cases h with ⟨-, rfl, -⟩ | ⟨i, hi, rfl, -⟩
    · exact .inl rfl
    · exact .inr (.inr (.inl ⟨i, _, lt_of_indexOfName hi, rfl⟩))
  | dump => cases h; exact .inl rfl
  | readStatus => cases h; exact .inl rfl

/-! The sizes (spec/10_state.md R16). -/

/-- `t` has the parameters of `s`, NGPR and MEMSIZE, and a register file of the same size. -/
def SameSizes (s t : State) : Prop := t.ngpr = s.ngpr ∧ t.memSize = s.memSize ∧ t.rf.cap = s.rf.cap

/-- A step updates registers and the status, which have fixed sizes. -/
theorem step_sameSizes (hs : s.Inv) (h : step s = .next t) : SameSizes s t := by
  rcases step_cases hs (running_of_step_next h) with ⟨d, v, -, -, hst⟩ | ⟨c, k, -, hst, -⟩
  · cases hst.symm.trans h; exact ⟨rfl, rfl, rfl⟩
  · cases hst.symm.trans h; exact ⟨rfl, rfl, rfl⟩

/-- No transaction changes a size; construction makes RF anew with the size that the invariant says it had. -/
theorem hostDo_sameSizes {tr : Transaction} (hs : s.Inv) (h : hostDo tr s = some (t, r)) : SameSizes s t := by
  rcases hostDo_cases h with rfl | ⟨a, b, -, rfl⟩ | ⟨i, v, -, rfl⟩ | rfl | hst
  · exact ⟨rfl, rfl, rfl⟩
  · exact ⟨rfl, rfl, rfl⟩
  · exact ⟨rfl, rfl, rfl⟩
  · exact ⟨rfl, rfl, hs.rf_cap.symm⟩
  · exact step_sameSizes hs hst

end Sys2Proof.Machine
end

section
/-! The statements of spec/10_state.md. -/

namespace Sys2Proof.Machine

/-- Settles O12: a register write is a 16-bit write of RF at `2i`, which lies inside RF. -/
theorem registersAreBigEndianWordsOfTheirBackingMemory :
    Obligations.RegistersAreBigEndianWordsOfTheirBackingMemory := by
  intro s i v hs hi
  have hbyte : ∀ x, (s.withReg i v).rf.byteAt x =
      if x = 2 * i then hiByte v else if x = 2 * i + 1 then loByte v else s.rf.byteAt x :=
    fun x => s.rf.byteAt_pokeWord (2 * i) x v
  refine ⟨hs.rf_cap, readReg_eq (hs.reg_fits hi), s.withReg i v, writeReg_eq (hs.reg_fits hi), rfl, rfl, rfl, ?_, ?_, ?_⟩
  · rw [hbyte, if_pos rfl, hiByte_toNat]
  · rw [hbyte, if_neg (by omega), if_pos rfl, loByte_toNat]
  · intro x hx hx'
    rw [hbyte, if_neg hx, if_neg hx']

/-- Settles O14: the names are distinct, so a name is looked up to its own index. -/
theorem registerNamesFollowTheirIndices : Obligations.RegisterNamesFollowTheirIndices := by
  refine ⟨regName_zero, regName_one, fun k hk => ?_, fun _ _ _ => indexOfName_eq_some_iff⟩
  obtain ⟨j, rfl⟩ := Nat.exists_eq_add_of_le' hk
  exact regName_add_two j

/-- Settles O16: a set that was done wrote the register of its name, and another name has another register. -/
theorem setThenGetReturnsTheTruncatedValue : Obligations.SetThenGetReturnsTheTruncatedValue := by
  intro s t name value hs h
  obtain ⟨-, -, hr⟩ | ⟨i, hi, rfl, -⟩ := hostSet_cases h
  · cases hr
  have ht : (s.withReg i (trunc16 value)).Inv := hs.withReg (lt_of_indexOfName hi) _
  refine ⟨?_, fun other hne => ?_⟩
  · rw [hostDo_get, hostGet_known ht hi, reg_withReg, if_pos rfl]
  · rw [hostDo_get, hostDo_get]
    cases hj : indexOfName s.nreg other with
    | none =>
      have hj' : indexOfName (s.withReg i (trunc16 value)).nreg other = none := hj
      rw [hostGet_unknown hj, hostGet_unknown hj', Option.map_some, Option.map_some]
    | some j =>
      rw [hostGet_known hs hj, hostGet_known ht hj, reg_withReg, if_neg (indexOfName_ne hi hj hne),
        Option.map_some, Option.map_some]

/-- Settles O17: the names follow from NGPR alone, and no transaction changes a size. -/
theorem theRegisterNamesAndSizesNeverChange : Obligations.TheRegisterNamesAndSizesNeverChange := by
  intro tr s t r hs h
  obtain ⟨hngpr, hmem, hrf⟩ := hostDo_sameSizes hs h
  exact ⟨hngpr, hmem, fun name => by rw [State.nreg, State.nreg, hngpr], hrf⟩

/-- Settles O13: the two cases of the index check. -/
theorem registerIndexIsCheckedBeforeTheRead : Obligations.RegisterIndexIsCheckedBeforeTheRead :=
  fun _ _ k hs => ⟨getByIndex_raised k, getByIndex_ok k hs.rf_cap⟩

/-- Settles O45: a constructed CPU has a new register file, and a new memory is all zero. -/
theorem resetLeavesZeroRegistersAndARunningStatus : Obligations.ResetLeavesZeroRegistersAndARunningStatus := by
  refine ⟨fun cap a => ⟨Memory.create_cap cap, Memory.byteAt_create cap a⟩, fun ngpr mem => ?_⟩
  refine ⟨rfl, rfl, rfl, Memory.byteAt_create _, fun j => reg_construct ngpr j mem, fun i k hi => ?_⟩
  rw [getByIndex_ok k rfl hi, reg_construct]

end Sys2Proof.Machine
end

section
/-! SUPPORT. What each memory access answers inside the bounds and outside them, on a Memory and on MEM
(spec/20_memory.md R31 to R34). -/

namespace Sys2Proof.Machine

variable {m m' : Memory} {s : State} {a : Nat} {b : Byte} {w : Word}

/-! On a Memory. -/

theorem Memory.read8_error (h : m.cap ≤ a) : m.read8 a = .error (.memOutOfBounds a .byte) := if_pos h

theorem Memory.read8_ok (h : a < m.cap) : m.read8 a = .ok (m.byteAt a) := if_neg (Nat.not_le.2 h)

theorem Memory.read16_error (h : m.cap ≤ a + 1) : m.read16 a = .error (.memOutOfBounds a .word) := if_pos h

theorem Memory.read16_ok (h : a + 1 < m.cap) : m.read16 a = .ok (m.wordAt a) := if_neg (Nat.not_le.2 h)

theorem Memory.write8_error (h : m.cap ≤ a) : m.write8 a b = .error (.memOutOfBounds a .byte) := if_pos h

theorem Memory.write8_ok (h : a < m.cap) : m.write8 a b = .ok (m.poke a b) := if_neg (Nat.not_le.2 h)

theorem Memory.write16_error (h : m.cap ≤ a + 1) : m.write16 a w = .error (.memOutOfBounds a .word) := if_pos h

theorem Memory.write16_ok (h : a + 1 < m.cap) : m.write16 a w = .ok (m.pokeWord a w) := if_neg (Nat.not_le.2 h)

/-- An 8-bit write succeeds exactly inside the bounds, and what it leaves is the poke. -/
theorem Memory.write8_eq_ok_iff : m.write8 a b = .ok m' ↔ a < m.cap ∧ m' = m.poke a b := by
  rcases Nat.lt_or_ge a m.cap with h | h
  · simp [Memory.write8_ok h, h, eq_comm]
  · simp [Memory.write8_error h, Nat.not_lt.2 h]

/-- A 16-bit write succeeds exactly where both bytes are inside the bounds, and what it leaves is the poke. -/
theorem Memory.write16_eq_ok_iff : m.write16 a w = .ok m' ↔ a + 1 < m.cap ∧ m' = m.pokeWord a w := by
  rcases Nat.lt_or_ge (a + 1) m.cap with h | h
  · simp [Memory.write16_ok h, h, eq_comm]
  · simp [Memory.write16_error h, Nat.not_lt.2 h]

/-- The word at `a` as a number: the byte at the lower address is the high byte (R35). -/
theorem Memory.wordAt_toNat (m : Memory) (a : Nat) :
    (m.wordAt a).toNat = (m.byteAt a).toNat * 256 + (m.byteAt (a + 1)).toNat := joinBytes_toNat _ _

/-! On MEM: the same bounds, with the fault raised in the state as it was. -/

theorem memRead8_raised (h : s.memSize ≤ a) : memRead8 a s = raise (.memOutOfBounds a .byte) s := by
  rw [memRead8, Memory.read8_error h]

theorem memRead8_ok (h : a < s.memSize) : memRead8 a s = .ok (s.mem.byteAt a) s := by
  rw [memRead8, Memory.read8_ok h]

theorem memRead16_raised (h : s.memSize ≤ a + 1) : memRead16 a s = raise (.memOutOfBounds a .word) s := by
  rw [memRead16, Memory.read16_error h]

theorem memRead16_ok (h : a + 1 < s.memSize) : memRead16 a s = .ok (s.mem.wordAt a) s := by
  rw [memRead16, Memory.read16_ok h]

theorem memWrite8_raised (h : s.memSize ≤ a) : memWrite8 a b s = raise (.memOutOfBounds a .byte) s := by
  rw [memWrite8, Memory.write8_error h]

theorem memWrite8_ok (h : a < s.memSize) : memWrite8 a b s = .ok () (s.withMem (s.mem.poke a b)) := by
  rw [memWrite8, Memory.write8_ok h]

theorem memWrite16_raised (h : s.memSize ≤ a + 1) : memWrite16 a w s = raise (.memOutOfBounds a .word) s := by
  rw [memWrite16, Memory.write16_error h]

theorem memWrite16_ok (h : a + 1 < s.memSize) : memWrite16 a w s = .ok () (s.withMem (s.mem.pokeWord a w)) := by
  rw [memWrite16, Memory.write16_ok h]

end Sys2Proof.Machine
end

section
/-! The statements of spec/20_memory.md. -/

namespace Sys2Proof.Machine

/-- Settles O8: inside the bounds the write is a poke, which changes the byte it names and no other. -/
theorem eightBitWriteChangesOneByte : Obligations.EightBitWriteChangesOneByte := by
  refine ⟨fun m a b => ⟨Memory.write8_error, fun h => ⟨m.poke a b, Memory.write8_ok h, m.poke_cap a b, ?_, ?_⟩⟩,
    fun s a b => ⟨memWrite8_raised, fun h => ⟨s.mem.poke a b, memWrite8_ok h, Memory.write8_ok h⟩⟩⟩
  · rw [Memory.byteAt_poke, if_pos rfl]
  · intro x hx
    rw [Memory.byteAt_poke, if_neg hx]

/-- Settles O9: inside the bounds the write pokes the word's high byte at `a` and its low byte at `a + 1`. -/
theorem sixteenBitWriteIsBigEndian : Obligations.SixteenBitWriteIsBigEndian := by
  refine ⟨fun m a w => ⟨Memory.write16_error, fun h =>
      ⟨m.pokeWord a w, Memory.write16_ok h, m.pokeWord_cap a w, ?_, ?_, ?_⟩⟩,
    fun s a w => ⟨memWrite16_raised, fun h => ⟨s.mem.pokeWord a w, memWrite16_ok h, Memory.write16_ok h⟩⟩⟩
  · rw [Memory.byteAt_pokeWord, if_pos rfl, hiByte_toNat]
  · rw [Memory.byteAt_pokeWord, if_neg (Nat.succ_ne_self a), if_pos rfl, loByte_toNat]
  · intro x hx hx'
    rw [Memory.byteAt_pokeWord, if_neg hx, if_neg hx']

/-- Settles O10: a write that succeeded was in bounds and kept the capacity, so the read is in bounds too. -/
theorem readAfterWriteRoundTrips : Obligations.ReadAfterWriteRoundTrips := by
  refine ⟨fun m m' a w hw => ?_, fun m m' a b hw => ?_⟩
  · obtain ⟨h, rfl⟩ := Memory.write16_eq_ok_iff.1 hw
    have hread : a + 1 < (m.pokeWord a w).cap := h
    rw [Memory.read16_ok hread, Memory.wordAt_pokeWord]
  · obtain ⟨h, rfl⟩ := Memory.write8_eq_ok_iff.1 hw
    have hread : a < (m.poke a b).cap := h
    rw [Memory.read8_ok hread, Memory.byteAt_poke, if_pos rfl]

/-- Settles O6: the two cases of the bound test, on a Memory and on MEM. -/
theorem eightBitReadIsBoundedAndPure : Obligations.EightBitReadIsBoundedAndPure :=
  ⟨fun _ _ => ⟨Memory.read8_error, Memory.read8_ok⟩, fun _ _ => ⟨memRead8_raised, memRead8_ok⟩⟩

/-- Settles O7: the word that is read has the byte at the lower address for its high byte. -/
theorem sixteenBitReadIsBigEndian : Obligations.SixteenBitReadIsBigEndian :=
  ⟨fun m a => ⟨Memory.read16_error, fun h => ⟨_, Memory.read16_ok h, m.wordAt_toNat a⟩⟩,
    fun s a => ⟨memRead16_raised, fun h => ⟨_, memRead16_ok h, s.mem.wordAt_toNat a⟩⟩⟩

/-- Settles O11: each access tests its whole range before it reads or writes, and `raise` sets the status alone. -/
theorem outOfBoundsAccessesHaveNoPartialEffect : Obligations.OutOfBoundsAccessesHaveNoPartialEffect :=
  fun _ _ _ _ =>
    ⟨fun h => ⟨memRead8_raised h, memWrite8_raised h⟩, fun h => ⟨memRead16_raised h, memWrite16_raised h⟩,
      fun h => ⟨_, _, memRead8_ok h, memWrite8_ok h⟩, fun h => ⟨_, _, memRead16_ok h, memWrite16_ok h⟩⟩

end Sys2Proof.Machine
end

section
/-! SUPPORT. The opcode bytes with no meaning (spec/30_encoding.md R58) and a step that meets one
(spec/40_fetch_decode.md R69). -/

namespace Sys2Proof

/-- The byte of every opcode is one of the three of R56. -/
theorem byteOfOpcode_mem (o : Opcode) : byteOfOpcode o ∈ [0x10#8, 0x11#8, 0x12#8] := by cases o <;> decide

/-- The reserved bytes are all but the three of R56. -/
theorem opcodeOfByte_eq_none_iff {b : Byte} : opcodeOfByte b = none ↔ b ∉ [0x10#8, 0x11#8, 0x12#8] := by
  constructor
  · intro h hb
    have hdefined : ∀ c ∈ [0x10#8, 0x11#8, 0x12#8], opcodeOfByte c ≠ none := by decide
    exact hdefined b hb h
  · intro hb
    cases h : opcodeOfByte b with
    | none => rfl
    | some o =>
      rw [byteOfOpcode_of_opcodeOfByte h] at hb
      exact absurd (byteOfOpcode_mem o) hb

namespace Machine

variable {s : State}

/-- A step that meets a reserved opcode raises IllegalOpcode with `ip` past that one byte. -/
theorem step_illegal (h : s.Inv) (hs : s.status = .running) (hi : s.ip.toNat < s.memSize)
    (hop : opcodeOfByte s.opcodeByte = none) :
    step s = .next ((s.advance 1).withStatus (.faulted (.illegalOpcode s.opcodeByte s.ip))) :=
  step_raised hs (fetchInstr_illegal h hi hop)

/-- After `n` bytes have been fetched, `ip` as a number. -/
theorem advance_ip_toNat (n : Nat) : (s.advance n).ip.toNat = (s.ip.toNat + n) % 65536 := by
  rw [advance_ip, trunc16_toNat]

end Machine
end Sys2Proof
end

section
/-! The statements of spec/40_fetch_decode.md about the fetch unit and the illegal opcode. -/

namespace Sys2Proof.Machine

/-- Settles O18: the two cases of the bound test on `ip`; a fetch that succeeds leaves `s.advance 1`. -/
theorem fetchReadsOneByteAndAdvances : Obligations.FetchReadsOneByteAndAdvances :=
  fun _ hs => ⟨fetch_raised hs, fun hi => ⟨_, fetch_ok hs hi, advance_ip_toNat 1, advance_status 1, advance_frame 1⟩⟩

/-- Settles O19: the two cases of the unwrapped bound test; the word read is big-endian, and a fetch that succeeds leaves
`s.advance 2`. -/
theorem fetch16IsOneAccessAndAdvancesByTwo : Obligations.Fetch16IsOneAccessAndAdvancesByTwo :=
  fun s hs => ⟨fetch16_raised hs, fun hi =>
    ⟨_, _, fetch16_ok hs hi, s.mem.wordAt_toNat _, advance_ip_toNat 2, advance_status 2, advance_frame 2⟩⟩

/-- Settles O20: the fetch unit raises the fault after the opcode's fetch, and a faulted machine refuses its step. -/
theorem illegalOpcodeFaultsAfterItsFetch : Obligations.IllegalOpcodeFaultsAfterItsFetch := by
  intro s hs hrun hi hopc
  have hstep := step_illegal hs hrun hi (opcodeOfByte_eq_none_iff.2 hopc)
  exact ⟨_, hstep, withStatus_status _ _, advance_ip 1, (advance_frame 1).withStatus _,
    step_faulted (withStatus_status _ _)⟩

end Sys2Proof.Machine
end

section
/-! SUPPORT. A step that meets a fault in its fetches, and a step that loads a literal (spec/41_move_literal.md R80 to
R82): the two move-literal instructions differ in their destination alone, so `mk` stands for either. -/

namespace Sys2Proof.Machine

variable {s : State} {mk : Word → Instr} {d : Nat}

theorem exec_movLitR1 (h : s.Inv) (lit : Word) : exec (.movLitR1 lit) s = .next (s.withReg 2 lit) := by
  rw [exec, execMovLitR1, writeReg_eq (h.named_fits (by decide)), Res.outcome_ok, r1Index]

theorem exec_movLitR2 (h : s.Inv) (lit : Word) : exec (.movLitR2 lit) s = .next (s.withReg 3 lit) := by
  rw [exec, execMovLitR2, writeReg_eq (h.named_fits (by decide)), Res.outcome_ok, r2Index]

/-- A step whose opcode is outside MEM changes nothing but the status (the first row of R82). -/
theorem step_faults_at_opcode_fetch (h : s.Inv) (hs : s.status = .running) (ho : s.memSize ≤ s.ip.toNat) :
    ∃ t, step s = .next t ∧ t.status = .faulted (.memOutOfBounds s.ip.toNat .byte) ∧ FrameExcept [] s t :=
  ⟨_, step_raised hs (fetchInstr_raised h ho), withStatus_status _ _, (FrameExcept.refl [] s).withStatus _⟩

/-- A step whose literal is not wholly inside MEM leaves `ip` past the opcode (the second row of R82). -/
theorem step_faults_at_literal_fetch (h : s.Inv) (hs : s.status = .running)
    (hf : fetchInstr s = (fetch16 (s.advance 1)).bind fun lit t => .ok (mk lit) t)
    (ho : s.memSize ≤ (trunc16 (s.ip.toNat + 1)).toNat + 1) :
    ∃ t, step s = .next t ∧ t.status = .faulted (.memOutOfBounds (trunc16 (s.ip.toNat + 1)).toNat .word) ∧
      t.ip = trunc16 (s.ip.toNat + 1) ∧ FrameExcept [0] s t := by
  rw [fetch16_advance_raised h ho, raise_bind] at hf
  exact ⟨_, step_raised hs hf, withStatus_status _ _, advance_ip 1, (advance_frame 1).withStatus _⟩

/-- A step whose literal is inside MEM loads register `d` with it, when that is what its instruction means (the third
row of R82). -/
theorem step_loads_literal (h : s.Inv) (hs : s.status = .running)
    (hf : fetchInstr s = (fetch16 (s.advance 1)).bind fun lit t => .ok (mk lit) t) (hd : d ≠ 0)
    (hexec : ∀ lit, exec (mk lit) (s.advance 3) = .next ((s.advance 3).withReg d lit))
    (hl : (trunc16 (s.ip.toNat + 1)).toNat + 1 < s.memSize) :
    ∃ t, step s = .next t ∧ t.status = .running ∧ t.ip = trunc16 (s.ip.toNat + 3) ∧
      (t.reg d).toNat = (s.mem.byteAt (trunc16 (s.ip.toNat + 1)).toNat).toNat * 256 +
        (s.mem.byteAt ((trunc16 (s.ip.toNat + 1)).toNat + 1)).toNat ∧
      FrameExcept [0, d] s t := by
  rw [fetch16_advance_ok h hl, Res.bind_ok] at hf
  refine ⟨_, (step_running hs hf).trans (hexec _), hs, ?_, ?_, ?_⟩
  · rw [ip_withReg, if_neg hd, advance_ip]
  · rw [reg_withReg, if_pos rfl, Memory.wordAt_toNat]
  · exact ((FrameExcept.refl [0, d] s).withReg (by simp) _).withReg (by simp) _

end Sys2Proof.Machine
end

section
/-! The statements of spec/41_move_literal.md. -/

namespace Sys2Proof.Machine

/-- Settles O24: the three rows of R82, with `r1` as the destination. -/
theorem stepOfMovLitR1LoadsR1OrFaults : Obligations.StepOfMovLitR1LoadsR1OrFaults := by
  intro s hs hrun
  have hfetch (hi : s.ip.toNat < s.memSize) (hopc : s.opcodeByte = 0x10#8) :=
    fetchInstr_movLitR1 hs hi (by rw [hopc]; rfl)
  exact ⟨step_faults_at_opcode_fetch hs hrun,
    fun hi hopc => step_faults_at_literal_fetch hs hrun (hfetch hi hopc),
    fun hi hopc => step_loads_literal hs hrun (hfetch hi hopc) (by decide) (exec_movLitR1 (hs.advance 3))⟩

/-- Settles O25: the three rows of R82, with `r2` as the destination. -/
theorem stepOfMovLitR2LoadsR2OrFaults : Obligations.StepOfMovLitR2LoadsR2OrFaults := by
  intro s hs hrun
  have hfetch (hi : s.ip.toNat < s.memSize) (hopc : s.opcodeByte = 0x11#8) :=
    fetchInstr_movLitR2 hs hi (by rw [hopc]; rfl)
  exact ⟨step_faults_at_opcode_fetch hs hrun,
    fun hi hopc => step_faults_at_literal_fetch hs hrun (hfetch hi hopc),
    fun hi hopc => step_loads_literal hs hrun (hfetch hi hopc) (by decide) (exec_movLitR2 (hs.advance 3))⟩

end Sys2Proof.Machine
end

section
/-! SUPPORT. The meaning of ADD_REG_REG case by case (spec/42_add.md R85), and what a step leaves whose fault or bad index
came after `k` fetched bytes (R86). -/

namespace Sys2Proof.Machine

variable {s : State} {ra rb : Byte} {k : Nat} {c : Cause}

theorem exec_addRegReg_ok (h : s.Inv) (ha : ra.toNat < s.nreg) (hb : rb.toNat < s.nreg) :
    exec (.addRegReg ra rb) s = .next (s.withReg 1 (addWrap (s.reg ra.toNat) (s.reg rb.toNat))) := by
  rw [exec, execAddRegReg, getByIndex_ok _ h.rf_cap ha, Res.bind_ok, getByIndex_ok _ h.rf_cap hb, Res.bind_ok,
    writeReg_eq (h.named_fits (by decide)), Res.outcome_ok, accIndex]

theorem exec_addRegReg_bad_first (ha : s.nreg ≤ ra.toNat) :
    exec (.addRegReg ra rb) s = .next (s.withStatus (.faulted (.regIndexOutOfRange ra .first))) := by
  rw [exec, execAddRegReg, getByIndex_raised _ ha, raise_bind, raise_outcome]

theorem exec_addRegReg_bad_second (h : s.Inv) (ha : ra.toNat < s.nreg) (hb : s.nreg ≤ rb.toNat) :
    exec (.addRegReg ra rb) s = .next (s.withStatus (.faulted (.regIndexOutOfRange rb .second))) := by
  rw [exec, execAddRegReg, getByIndex_ok _ h.rf_cap ha, Res.bind_ok, getByIndex_raised _ hb, raise_bind, raise_outcome]

/-- The first operand fetch of ADD_REG_REG fails (row 2 of R86). -/
theorem fetchInstr_addRegReg_raised_first (h : s.Inv) (hi : s.ip.toNat < s.memSize)
    (hop : opcodeOfByte s.opcodeByte = some .addRegReg) (h1 : s.memSize ≤ (trunc16 (s.ip.toNat + 1)).toNat) :
    fetchInstr s = raise (.memOutOfBounds (trunc16 (s.ip.toNat + 1)).toNat .byte) (s.advance 1) := by
  rw [fetchInstr_addRegReg h hi hop, fetch_advance_raised h 1 h1, raise_bind]

/-- The second operand fetch of ADD_REG_REG fails (row 3 of R86). -/
theorem fetchInstr_addRegReg_raised_second (h : s.Inv) (hi : s.ip.toNat < s.memSize)
    (hop : opcodeOfByte s.opcodeByte = some .addRegReg) (h1 : (trunc16 (s.ip.toNat + 1)).toNat < s.memSize)
    (h2 : s.memSize ≤ (trunc16 (s.ip.toNat + 2)).toNat) :
    fetchInstr s = raise (.memOutOfBounds (trunc16 (s.ip.toNat + 2)).toNat .byte) (s.advance 2) := by
  rw [fetchInstr_addRegReg h hi hop, fetch_advance_ok h 1 h1, Res.bind_ok, fetch_advance_raised h 2 h2, raise_bind]

/-- Both operand fetches of ADD_REG_REG complete, whatever the indices are (R85). -/
theorem fetchInstr_addRegReg_ok (h : s.Inv) (hi : s.ip.toNat < s.memSize)
    (hop : opcodeOfByte s.opcodeByte = some .addRegReg) (h1 : (trunc16 (s.ip.toNat + 1)).toNat < s.memSize)
    (h2 : (trunc16 (s.ip.toNat + 2)).toNat < s.memSize) :
    fetchInstr s = .ok (.addRegReg (s.mem.byteAt (trunc16 (s.ip.toNat + 1)).toNat)
      (s.mem.byteAt (trunc16 (s.ip.toNat + 2)).toNat)) (s.advance 3) := by
  rw [fetchInstr_addRegReg h hi hop, fetch_advance_ok h 1 h1, Res.bind_ok, fetch_advance_ok h 2 h2, Res.bind_ok]

/-- A step that took a fault after `k` fetched bytes changed `ip` and the status alone (40_fetch_decode.md R72). -/
theorem step_faults_after_fetches (hst : step s = .next ((s.advance k).withStatus (.faulted c))) :
    ∃ t, step s = .next t ∧ t.status = .faulted c ∧ t.ip = trunc16 (s.ip.toNat + k) ∧ FrameExcept [0] s t :=
  ⟨_, hst, withStatus_status _ _, advance_ip k, (advance_frame k).withStatus _⟩

/-- A step that executes ADD_REG_REG on two legal indices leaves their sum in `acc`; its sources are read with `ip` past
the instruction (row 6 of R86). -/
theorem step_sums_registers (h : s.Inv) (hs : s.status = .running)
    (hf : fetchInstr s = .ok (.addRegReg ra rb) (s.advance 3)) (ha : ra.toNat < s.nreg) (hb : rb.toNat < s.nreg) :
    ∃ t, step s = .next t ∧ t.status = .running ∧ t.ip = trunc16 (s.ip.toNat + 3) ∧
      (t.reg 1).toNat = (((s.advance 3).reg ra.toNat).toNat + ((s.advance 3).reg rb.toNat).toNat) % 65536 ∧
      FrameExcept [0, 1] s t := by
  refine ⟨_, (step_running hs hf).trans (exec_addRegReg_ok (h.advance 3) ha hb), hs, ?_, ?_, ?_⟩
  · rw [ip_withReg, if_neg Nat.one_ne_zero, advance_ip]
  · rw [reg_withReg, if_pos rfl, addWrap_toNat]
  · exact ((FrameExcept.refl [0, 1] s).withReg (by simp) _).withReg (by simp) _

end Sys2Proof.Machine
end

section
/-! The statements of spec/42_add.md. -/

namespace Sys2Proof.Machine

/-- Settles O26: the six rows of R86, each by the fetches that completed before it was decided. -/
theorem stepOfAddRegRegSumsOrFaults : Obligations.StepOfAddRegRegSumsOrFaults := by
  intro s hs hrun b c ra rb
  have hadd (hopc : s.opcodeByte = 0x12#8) : opcodeOfByte s.opcodeByte = some .addRegReg := by rw [hopc]; rfl
  have hfetched (hi : s.ip.toNat < s.memSize) (hopc : s.opcodeByte = 0x12#8) (h1 : b < s.memSize)
      (h2 : c < s.memSize) : fetchInstr s = .ok (.addRegReg ra rb) (s.advance 3) :=
    fetchInstr_addRegReg_ok hs hi (hadd hopc) h1 h2
  refine ⟨step_faults_at_opcode_fetch hs hrun, fun hi hopc h1 => ?_, fun hi hopc h1 h2 => ?_,
    fun hi hopc h1 h2 ha => ?_, fun hi hopc h1 h2 ha hb => ?_, fun hi hopc h1 h2 => ?_⟩
  · exact step_faults_after_fetches (step_raised hrun (fetchInstr_addRegReg_raised_first hs hi (hadd hopc) h1))
  · exact step_faults_after_fetches (step_raised hrun (fetchInstr_addRegReg_raised_second hs hi (hadd hopc) h1 h2))
  · exact step_faults_after_fetches
      ((step_running hrun (hfetched hi hopc h1 h2)).trans (exec_addRegReg_bad_first ha))
  · exact step_faults_after_fetches
      ((step_running hrun (hfetched hi hopc h1 h2)).trans (exec_addRegReg_bad_second (hs.advance 3) ha hb))
  · exact step_sums_registers hs hrun (hfetched hi hopc h1 h2)

end Sys2Proof.Machine
end

section
/-! SUPPORT. One equation per transaction of the host and case, where get and set have theirs already
(spec/43_host_interface.md R91, R92, R95, R96). -/

namespace Sys2Proof.Machine

variable {s : State} {a : Nat} {b : Byte}

@[simp] theorem hostDo_constructCpu (s : State) :
    hostDo .constructCpu s = some (State.construct s.ngpr s.mem, .done) := rfl

@[simp] theorem hostDo_dump (s : State) : hostDo .dump s = some (s, .text (dumpText s)) := rfl

@[simp] theorem hostDo_readStatus (s : State) : hostDo .readStatus s = some (s, .status s.status) := rfl

/-- A preload outside MEM is no transaction (R91). -/
theorem hostDo_preload_outside (h : s.memSize ≤ a) : hostDo (.preload a b) s = none := by
  rw [hostDo, State.preload, if_pos h, Option.map_none]

theorem hostDo_preload_inside (h : a < s.memSize) :
    hostDo (.preload a b) s = some (s.withMem (s.mem.poke a b), .done) := by
  rw [hostDo, preload_eq_some_iff.2 ⟨h, rfl⟩, Option.map_some]

theorem hostDo_readBack_outside (h : s.memSize ≤ a) : hostDo (.readBack a) s = none := if_pos h

theorem hostDo_readBack_inside (h : a < s.memSize) :
    hostDo (.readBack a) s = some (s, .byte (s.mem.byteAt a)) := if_neg (Nat.not_le.2 h)

theorem State.Inv.nreg_pos (h : s.Inv) : 0 < s.nreg := by
  have := h.four_le_nreg
  omega

/-- The name `ip` is known on every machine (spec/10_state.md R15), so the host can always set it. -/
theorem hostSet_ip (h : s.Inv) (value : Nat) :
    hostSet "ip" value s = some (s.withReg 0 (trunc16 value), .done) :=
  hostSet_known h (indexOfName_regName h.nreg_pos)

/-- After `ip` has been set to `w`, the next fetch reads at `w` (R94). -/
theorem fetch_withReg_ip {w : Word} (h : s.Inv) (hw : w.toNat < s.memSize) :
    fetch (s.withReg 0 w) = .ok (s.mem.byteAt w.toNat) ((s.withReg 0 w).advance 1) := by
  have hip : (s.withReg 0 w).ip = w := by rw [ip_withReg, if_pos rfl]
  have hin : (s.withReg 0 w).ip.toNat < (s.withReg 0 w).memSize := by rwa [hip]
  rw [fetch_ok (h.withReg h.nreg_pos w) hin, hip, withReg_mem]

end Sys2Proof.Machine
end

section
/-! SUPPORT. The digits of the dump (spec/43_host_interface.md R95): `hex4` writes a word as four digits to the base 16,
and each digit stands at its own value in the alphabet. -/

namespace Sys2Proof.Machine

/-- The digit of `d` is the one at position `d` of the lower-case hexadecimal alphabet. -/
theorem idxOf_digitChar : ∀ d < 16, "0123456789abcdef".toList.idxOf (Nat.digitChar d) = d := by decide

theorem digitChar_mem {d : Nat} (h : d < 16) : Nat.digitChar d ∈ "0123456789abcdef".toList := by
  rw [← List.idxOf_lt_length_iff, idxOf_digitChar d h]
  exact h

theorem toList_hex4 (v : Word) :
    (hex4 v).toList = [4096, 256, 16, 1].map fun p => Nat.digitChar (v.toNat / p % 16) := String.toList_ofList

theorem length_hex4 (v : Word) : (hex4 v).length = 4 := by
  rw [← String.length_toList, toList_hex4, List.length_map]
  rfl

theorem mem_alphabet_of_mem_hex4 {v : Word} {ch : Char} (h : ch ∈ (hex4 v).toList) :
    ch ∈ "0123456789abcdef".toList := by
  rw [toList_hex4] at h
  obtain ⟨p, -, rfl⟩ := List.mem_map.1 h
  exact digitChar_mem (Nat.mod_lt _ (by decide))

/-- The four digits of a word write it: a 16-bit value has no fifth. -/
theorem hexValue_hex4 (v : Word) : hexValue (hex4 v) = v.toNat := by
  have hdigit (p : Nat) : "0123456789abcdef".toList.idxOf (Nat.digitChar (v.toNat / p % 16)) = v.toNat / p % 16 :=
    idxOf_digitChar _ (Nat.mod_lt _ (by decide))
  have hv : v.toNat < 65536 := v.isLt
  rw [hexValue, toList_hex4]
  simp only [List.map_cons, List.map_nil, List.foldl_cons, List.foldl_nil, hdigit]
  omega

end Sys2Proof.Machine
end

section
/-! The statements of spec/43_host_interface.md. -/

namespace Sys2Proof.Machine

/-- Settles O15: the name is known or not, and `ip` is known on every machine. -/
theorem hostReachesRegistersByName : Obligations.HostReachesRegistersByName := by
  intro s name value hs
  refine ⟨fun hn => ⟨hostGet_unknown hn, hostSet_unknown hn⟩, fun i hi => ⟨hostGet_known hs hi, ?_⟩, ?_⟩
  · refine ⟨_, hostSet_known hs hi, ?_, withReg_status _ _ _, (FrameExcept.refl [i] s).withReg (by simp) _⟩
    rw [reg_withReg, if_pos rfl, trunc16_toNat]
  · refine ⟨_, hostSet_ip hs value, by rw [ip_withReg, if_pos rfl], fun hlt => ?_⟩
    rw [← trunc16_toNat] at hlt ⊢
    exact ⟨_, fetch_withReg_ip hs hlt⟩

/-- Settles O49: a preload inside MEM is one poke, which changes no other byte. -/
theorem preloadWritesOneByteOfMemory : Obligations.PreloadWritesOneByteOfMemory := by
  intro s a b
  refine ⟨fun ho => ⟨hostDo_preload_outside ho, hostDo_readBack_outside ho⟩,
    fun hi => ⟨hostDo_readBack_inside hi, _, hostDo_preload_inside hi, rfl, ?_, fun x hx => ?_, rfl, rfl, rfl⟩⟩
  · rw [withMem_mem, Memory.byteAt_poke, if_pos rfl]
  · rw [withMem_mem, Memory.byteAt_poke, if_neg hx]

/-- Settles O51: the text is the model's own, and `hex4` writes four digits to the base 16. -/
theorem theDumpPrintsEveryRegister : Obligations.TheDumpPrintsEveryRegister :=
  ⟨hostDo_dump, fun v => ⟨length_hex4 v, fun _ => mem_alphabet_of_mem_hex4, hexValue_hex4 v⟩⟩

/-- Settles O46: construction takes MEM as it is, so it commutes with a preload. -/
theorem constructingTheCpuIsTheReset : Obligations.ConstructingTheCpuIsTheReset := by
  intro s
  refine ⟨⟨_, hostDo_constructCpu s, fun j => reg_construct _ j _, ip_construct _ _, rfl, rfl, rfl, rfl⟩,
    fun a b ha => ?_⟩
  have hafter : a < (State.construct s.ngpr s.mem).memSize := ha
  exact ⟨_, State.construct s.ngpr (s.mem.poke a b), _, hostDo_preload_inside ha, hostDo_constructCpu _,
    hostDo_constructCpu s, hostDo_preload_inside hafter⟩

/-- Settles O52: the four transactions that read, each by the state it answers with. -/
theorem readingTransactionsChangeNothing : Obligations.ReadingTransactionsChangeNothing := by
  refine ⟨hostDo_readStatus, fun tr s t r htr h => ?_⟩
  obtain rfl | rfl | ⟨a, rfl⟩ | ⟨name, rfl⟩ := htr
  · cases h; rfl
  · cases h; rfl
  · by_cases ha : a < s.memSize
    · rw [hostDo_readBack_inside ha] at h; cases h; rfl
    · rw [hostDo_readBack_outside (Nat.not_lt.1 ha)] at h; cases h
  · exact hostGet_state h

end Sys2Proof.Machine
end

section
/-! SUPPORT. What a faulted machine does with a step, a run and a transaction (spec/60_exceptions.md R108), and the two
transactions that can change the status. -/

namespace Sys2Proof.Machine

variable {s t : State} {c : Cause}

/-- The host's step on a faulted machine is refused and changes nothing (spec/43_host_interface.md R93). -/
theorem hostStep_faulted (hs : s.status = .faulted c) : hostStep s = some (s, .refused) := by
  rw [hostStep, step_faulted hs]

/-- A run of a faulted machine ends at its first step, where it stands. -/
theorem runOf_faulted (hs : s.status = .faulted c) (n : Nat) : runOf n s = s := by
  cases n with
  | zero => rfl
  | succ n => rw [runOf, step_faulted hs]

theorem completes_faulted (hs : s.status = .faulted c) (n : Nat) : completes n s = false := by
  cases n with
  | zero => rw [completes, hs]; rfl
  | succ n => rw [completes, step_faulted hs]

/-- Beside construction, only a step changes the status: a preload writes MEM, a set writes a register, and the other
transactions read (the table of R98). -/
theorem hostDo_status_or_step {tr : Transaction} {r : Reply} (htr : tr ≠ .constructCpu)
    (h : hostDo tr s = some (t, r)) : t.status = s.status ∨ step s = .next t := by
  have hread (hr : tr = .readStatus ∨ tr = .dump ∨ (∃ a, tr = .readBack a) ∨ ∃ name, tr = .get name) :
      t.status = s.status ∨ step s = .next t :=
    .inl (congrArg State.status (readingTransactionsChangeNothing.2 tr s t r hr h))
  cases tr with
  | preload a b =>
    obtain ⟨u, hu, hut⟩ := Option.map_eq_some_iff.1 h
    cases hut
    obtain ⟨-, rfl⟩ := preload_eq_some_iff.1 hu
    exact .inl (withMem_status _ _)
  | readBack a => exact hread (by simp)
  | constructCpu => exact absurd rfl htr
  | step => exact (hostStep_cases h).symm.imp_left (congrArg State.status)
  | get name => exact hread (by simp)
  | set name value =>
    rcases hostSet_cases h with ⟨-, rfl, -⟩ | ⟨i, -, rfl, -⟩
    · exact .inl rfl
    · exact .inl (withReg_status _ _ _)
  | dump => exact hread (by simp)
  | readStatus => exact hread (by simp)

/-- A faulted machine takes no step, so no transaction but construction touches its status (R108). -/
theorem hostDo_keeps_fault {tr : Transaction} {r : Reply} (hs : s.status = .faulted c) (htr : tr ≠ .constructCpu)
    (h : hostDo tr s = some (t, r)) : t.status = .faulted c := by
  rcases hostDo_status_or_step htr h with hst | hst
  · exact hst.trans hs
  · cases hs.symm.trans (running_of_step_next hst)

end Sys2Proof.Machine
end

section
/-! The statement of spec/60_exceptions.md that a fault lasts until reset. -/

namespace Sys2Proof.Machine

/-- Settles O38: no step is taken any more, no other transaction touches the status, and construction sets it anew. -/
theorem aFaultIsPermanentUntilReset : Obligations.AFaultIsPermanentUntilReset := by
  intro s c hs
  have hstatus : hostDo .readStatus s = some (s, .status (.faulted c)) := by rw [hostDo_readStatus, hs]
  exact ⟨step_faulted hs, hostStep_faulted hs, fun n => ⟨runOf_faulted hs n, completes_faulted hs n⟩,
    fun _ _ _ => hostDo_keeps_fault hs, hstatus, hostDo_dump s,
    fun hinv _ hi => hostGet_known hinv (indexOfName_regName hi), _, hostDo_constructCpu s, rfl⟩

end Sys2Proof.Machine
end

section
/-! SUPPORT. The encoding of an instruction by its opcode and its two operand bytes (spec/30_encoding.md R50 to R56):
decoder and encoder each get one equation in these terms, whatever the format. -/

namespace Sys2Proof

/-- The instruction with opcode `o` whose operand bytes are `b` and then `c` (R51, R52). -/
def Opcode.withOperands : Opcode → Byte → Byte → Instr
  | .movLitR1, b, c => .movLitR1 (joinBytes b c)
  | .movLitR2, b, c => .movLitR2 (joinBytes b c)
  | .addRegReg, b, c => .addRegReg b c

variable {i : Instr} {o : Opcode} {opc b c : Byte} {bytes rest : List Byte}

@[simp] theorem opcodeOf_withOperands (o : Opcode) (b c : Byte) : opcodeOf (o.withOperands b c) = o := by
  cases o <;> rfl

/-- Every instruction is its opcode with two operand bytes. -/
theorem exists_eq_withOperands (i : Instr) : ∃ o b c, i = Opcode.withOperands o b c := by
  cases i with
  | movLitR1 lit => exact ⟨.movLitR1, hiByte lit, loByte lit, by rw [Opcode.withOperands, joinBytes_hiByte_loByte]⟩
  | movLitR2 lit => exact ⟨.movLitR2, hiByte lit, loByte lit, by rw [Opcode.withOperands, joinBytes_hiByte_loByte]⟩
  | addRegReg ra rb => exact ⟨.addRegReg, ra, rb, rfl⟩

@[simp] theorem encode_withOperands (o : Opcode) (b c : Byte) :
    encode (o.withOperands b c) = [byteOfOpcode o, b, c] := by
  cases o with
  | movLitR1 => simp [encode, opcodeOf, operandBytes, Opcode.withOperands]
  | movLitR2 => simp [encode, opcodeOf, operandBytes, Opcode.withOperands]
  | addRegReg => rfl

theorem decode_of_opcodeOfByte_none (h : opcodeOfByte opc = none) (rest : List Byte) :
    decode (opc :: rest) = .error (.illegalOpcode opc) := by
  simp [decode, h]

theorem decode_of_opcodeOfByte_some (h : opcodeOfByte opc = some o) (b c : Byte) (rest : List Byte) :
    decode (opc :: b :: c :: rest) = .ok (o.withOperands b c, rest) := by
  cases o <;> simp [decode, h, Opcode.withOperands]

/-- Bytes decode to an instruction only when they are an opcode and two operand bytes at the least (R50, R60). -/
theorem decode_ok_cases (h : decode bytes = .ok (i, rest)) :
    ∃ o b c, bytes = byteOfOpcode o :: b :: c :: rest ∧ i = Opcode.withOperands o b c := by
  match bytes, h with
  | opc :: operands, h =>
    cases ho : opcodeOfByte opc with
    | none => rw [decode_of_opcodeOfByte_none ho] at h; cases h
    | some o =>
      match operands, h with
      | [], h => cases o <;> simp [decode, ho] at h
      | [_], h => cases o <;> simp [decode, ho] at h
      | b :: c :: _, h =>
        rw [decode_of_opcodeOfByte_some ho] at h
        cases h
        exact ⟨o, b, c, by rw [byteOfOpcode_of_opcodeOfByte ho], rfl⟩

end Sys2Proof
end

section
/-! The statements of spec/30_encoding.md. -/

namespace Sys2Proof

/-- Settles O1: an instruction is its opcode with two operand bytes, and the opcode's byte stands for it. -/
theorem decodeOfEncodeIsTheInstruction : Obligations.DecodeOfEncodeIsTheInstruction := by
  intro i rest
  obtain ⟨o, b, c, rfl⟩ := exists_eq_withOperands i
  rw [encode_withOperands]
  exact decode_of_opcodeOfByte_some (opcodeOfByte_byteOfOpcode o) b c rest

/-- Settles O2: the cases of a decoding that succeeds. -/
theorem decodedBytesAreTheEncoding : Obligations.DecodedBytesAreTheEncoding := by
  intro bytes i rest h
  obtain ⟨o, b, c, rfl, rfl⟩ := decode_ok_cases h
  rw [encode_withOperands]
  rfl

/-- Settles O3: the reserved bytes are the ones that stand for no opcode. -/
theorem exactlyThreeOpcodesDecode : Obligations.ExactlyThreeOpcodesDecode := by
  intro opc rest
  refine ⟨fun h => decode_of_opcodeOfByte_none (opcodeOfByte_eq_none_iff.2 h) rest, fun h b c => ?_⟩
  have hdefined : opcodeOfByte opc ≠ none := fun hnone => opcodeOfByte_eq_none_iff.1 hnone h
  obtain ⟨o, ho⟩ := Option.ne_none_iff_exists'.1 hdefined
  exact ⟨_, decode_of_opcodeOfByte_some ho b c rest⟩

/-- Settles O4: each of the three opcodes with the operand bytes `b` and `c`. -/
theorem operandsAreReadAsTheFormatsSay : Obligations.OperandsAreReadAsTheFormatsSay :=
  fun b c rest => ⟨joinBytes b c, joinBytes_toNat b c,
    decode_of_opcodeOfByte_some (opcodeOfByte_byteOfOpcode .movLitR1) b c rest,
    decode_of_opcodeOfByte_some (opcodeOfByte_byteOfOpcode .movLitR2) b c rest,
    decode_of_opcodeOfByte_some (opcodeOfByte_byteOfOpcode .addRegReg) b c rest⟩

/-- Settles O5: four fixed words, which the decoder is run on. -/
theorem wordsOfTheSpecDecode : Obligations.WordsOfTheSpecDecode := by
  unfold Obligations.WordsOfTheSpecDecode
  decide

end Sys2Proof
end

section
/-! SUPPORT. The invariant of a machine state under what changes it beside a register write: an advance of `ip`, a
fault, a preload and the construction of the CPU. -/

namespace Sys2Proof.Machine

variable {s t : State}

/-- Whether a record is true depends on MEMSIZE and NREG alone, which an advance keeps (R101). -/
theorem statusOk_advance_withStatus (n : Nat) (st : Status) :
    statusOk ((s.advance n).withStatus st) = statusOk (s.withStatus st) := rfl

/-- Every register of `step_cases` exists (R15). -/
theorem State.Inv.lt_nreg (h : s.Inv) {i : Nat} (hi : i < 4) : i < s.nreg := by
  have := h.four_le_nreg
  omega

theorem State.Inv.preload (h : s.Inv) {a : Nat} (ha : a < s.memSize) (b : Byte) :
    (s.withMem (s.mem.poke a b)).Inv := by
  obtain ⟨hngpr, hcap, hmem, hrf, hst⟩ := h
  exact ⟨hngpr, hcap, Memory.wf_poke b hmem ha, hrf, hst⟩

theorem inv_construct {ngpr : Nat} {mem : Memory} (hn : Config.LegalNgpr ngpr) (hm : mem.wf = true) :
    (State.construct ngpr mem).Inv := ⟨hn, rfl, hm, Memory.wf_create _, rfl⟩

theorem inv_powerOn {ngpr : Nat} (memSize : Nat) (hn : Config.LegalNgpr ngpr) : (State.powerOn ngpr memSize).Inv :=
  inv_construct hn (Memory.wf_create memSize)

end Sys2Proof.Machine
end

section
/-! The statements of the invariant. -/

namespace Sys2Proof.Machine

/-- Settles O41: a step writes registers that exist, or sets a status whose record is true. -/
theorem everyStepKeepsTheInvariant : Obligations.EveryStepKeepsTheInvariant := by
  intro s t hs h
  rcases step_cases hs (running_of_step_next h) with ⟨d, v, -, hd, hst⟩ | ⟨c, k, -, hst, hok⟩
  · cases hst.symm.trans h
    exact (hs.advance 3).withReg (hs.lt_nreg hd) v
  · cases hst.symm.trans h
    exact (hs.advance k).withStatus ((statusOk_advance_withStatus k _).trans hok)

/-- Settles O42: everything a transaction can do to the state keeps the invariant. -/
theorem everyTransactionKeepsTheInvariant : Obligations.EveryTransactionKeepsTheInvariant := by
  intro tr s t r hs h
  rcases hostDo_cases h with rfl | ⟨a, b, ha, rfl⟩ | ⟨i, v, hi, rfl⟩ | rfl | hst
  · exact hs
  · exact hs.preload ha b
  · exact hs.withReg hi v
  · obtain ⟨hngpr, -, hmem, -, -⟩ := hs
    exact inv_construct hngpr hmem
  · exact everyStepKeepsTheInvariant s t hs hst

/-- Settles O40: the CPU is constructed over a new memory, and the reference NGPR is legal. -/
theorem powerOnMeetsTheInvariant : Obligations.PowerOnMeetsTheInvariant :=
  ⟨inv_powerOn _ (by decide), fun _ memSize => inv_powerOn memSize⟩

end Sys2Proof.Machine
end

section
/-! SUPPORT. Where the bytes of an instruction stand (spec/40_fetch_decode.md R70), and that fetching an instruction
whose bytes are inside MEM is decoding them (R54, R68). -/

namespace Sys2Proof.Machine

variable {s : State} {o : Opcode} {i : Instr}

/-- The two operand bytes of an addition are fetched one by one, so both addresses wrap. -/
theorem nextAddrs_addRegReg (hop : opcodeOfByte s.opcodeByte = some .addRegReg) :
    s.nextAddrs = [s.ip.toNat, (trunc16 (s.ip.toNat + 1)).toNat, (trunc16 (s.ip.toNat + 2)).toNat] := by
  rw [State.nextAddrs, instrAddrs, if_pos hop]

/-- The two operand bytes of any other opcode are fetched by one access, so the second address does not wrap. -/
theorem nextAddrs_literal (hop : opcodeOfByte s.opcodeByte ≠ some .addRegReg) :
    s.nextAddrs = [s.ip.toNat, (trunc16 (s.ip.toNat + 1)).toNat, (trunc16 (s.ip.toNat + 1)).toNat + 1] := by
  rw [State.nextAddrs, instrAddrs, if_neg hop]

theorem ip_mem_nextAddrs (s : State) : s.ip.toNat ∈ s.nextAddrs := List.mem_cons_self

/-- Fetching an instruction whose three bytes are inside MEM gives the instruction that those bytes are. -/
theorem fetchInstr_withOperands (h : s.Inv) (hin : ∀ a ∈ s.nextAddrs, a < s.memSize)
    (hop : opcodeOfByte s.opcodeByte = some o) :
    ∃ b c, s.nextAddrs.map s.mem.byteAt = [s.opcodeByte, b, c] ∧
      fetchInstr s = .ok (o.withOperands b c) (s.advance 3) := by
  have hi : s.ip.toNat < s.memSize := hin _ (ip_mem_nextAddrs s)
  cases o with
  | movLitR1 =>
    have hnext := nextAddrs_literal (s := s) (by rw [hop]; decide)
    rw [hnext] at hin ⊢
    exact ⟨_, _, rfl, by rw [fetchInstr_movLitR1 h hi hop, fetch16_advance_ok h (hin _ (by simp))]; rfl⟩
  | movLitR2 =>
    have hnext := nextAddrs_literal (s := s) (by rw [hop]; decide)
    rw [hnext] at hin ⊢
    exact ⟨_, _, rfl, by rw [fetchInstr_movLitR2 h hi hop, fetch16_advance_ok h (hin _ (by simp))]; rfl⟩
  | addRegReg =>
    rw [nextAddrs_addRegReg hop] at hin ⊢
    exact ⟨_, _, rfl, fetchInstr_addRegReg_ok h hi hop (hin _ (by simp)) (hin _ (by simp))⟩

/-- Fetching three bytes inside MEM that decode to an instruction gives that instruction. -/
theorem fetchInstr_of_decode (h : s.Inv) (hin : ∀ a ∈ s.nextAddrs, a < s.memSize)
    (hd : decode (s.nextAddrs.map s.mem.byteAt) = .ok (i, [])) : fetchInstr s = .ok i (s.advance 3) := by
  obtain ⟨o, b, c, hbytes, rfl⟩ := decode_ok_cases hd
  have hopc : s.opcodeByte = byteOfOpcode o := (List.cons.inj hbytes).1
  obtain ⟨b', c', hbytes', hf⟩ := fetchInstr_withOperands h hin (by rw [hopc, opcodeOfByte_byteOfOpcode])
  obtain ⟨-, hoperands⟩ := List.cons.inj (hbytes.symm.trans hbytes')
  cases hoperands
  exact hf

/-- No address of an instruction wraps when its three bytes end at 0xFFFF or below. -/
theorem nextAddrs_of_le (hle : s.ip.toNat ≤ 0xFFFD) :
    s.nextAddrs = [s.ip.toNat, s.ip.toNat + 1, s.ip.toNat + 2] := by
  have h1 : (s.ip.toNat + 1) % 65536 = s.ip.toNat + 1 := Nat.mod_eq_of_lt (by omega)
  have h2 : (s.ip.toNat + 2) % 65536 = s.ip.toNat + 2 := Nat.mod_eq_of_lt (by omega)
  by_cases hop : opcodeOfByte s.opcodeByte = some .addRegReg
  · rw [nextAddrs_addRegReg hop, trunc16_toNat, trunc16_toNat, h1, h2]
  · rw [nextAddrs_literal hop, trunc16_toNat, h1]

/-- A loaded program is the bytes of MEM from its base on. -/
theorem map_byteAt_of_loaded {p : List Byte} {base : Nat} (hl : Loaded p base s) :
    (List.range p.length).map (fun k => s.mem.byteAt (base + k)) = p := by
  obtain ⟨-, hbyte⟩ := hl
  exact List.ext_getElem (by simp) fun k _ hk => by simpa using hbyte k hk

theorem length_encode (i : Instr) : (encode i).length = 3 := by
  obtain ⟨o, b, c, rfl⟩ := exists_eq_withOperands i
  rw [encode_withOperands]
  rfl

end Sys2Proof.Machine
end

section
/-! The statements of spec/40_fetch_decode.md about the instruction that a step runs. -/

namespace Sys2Proof.Machine

/-- Settles O21: the fetch unit fetches the instruction that the bytes decode to. -/
theorem stepRunsTheDecodedInstruction : Obligations.StepRunsTheDecodedInstruction :=
  fun _ _ hs hrun hin hd => step_running hrun (fetchInstr_of_decode hs hin hd)

/-- Settles O22: the two shapes of the addresses; a literal's last address differs from the wrapped one only past the
top of the address space. -/
theorem instructionBytesFollowTheWrappedInstructionPointer :
    Obligations.InstructionBytesFollowTheWrappedInstructionPointer := by
  intro s
  have hlit : ∀ b ∈ [0x10#8, 0x11#8], opcodeOfByte b ≠ some .addRegReg := by decide
  refine ⟨fun hno hdef => ?_, fun hopc hip => ?_⟩
  · by_cases hop : opcodeOfByte s.opcodeByte = some .addRegReg
    · rw [nextAddrs_addRegReg hop, trunc16_toNat, trunc16_toNat]
    · have hopc : s.opcodeByte ∈ [0x10#8, 0x11#8] := by
        obtain ⟨o, ho⟩ := Option.ne_none_iff_exists'.1 hdef
        rw [byteOfOpcode_of_opcodeOfByte ho]
        cases o with
        | movLitR1 => decide
        | movLitR2 => decide
        | addRegReg => exact absurd ho hop
      have hip : s.ip.toNat ≠ 0xFFFE := fun e => hno.resolve_left (not_not_intro hopc) (BitVec.eq_of_toNat_eq e)
      have hlast : (s.ip.toNat + 1) % 65536 + 1 = (s.ip.toNat + 2) % 65536 := by
        have := ip_lt s
        omega
      rw [nextAddrs_literal hop, trunc16_toNat, hlast]
  · rw [nextAddrs_literal (hlit _ hopc), hip]
    rfl

/-- Settles O23: the loaded bytes are the ones at the next addresses, and an encoding decodes to its instruction. -/
theorem aLoadedInstructionRuns : Obligations.ALoadedInstructionRuns := by
  intro s i hs hrun hl hle
  obtain ⟨hend, -⟩ := id hl
  have hbytes := map_byteAt_of_loaded hl
  rw [length_encode] at hend hbytes
  have hnext := nextAddrs_of_le hle
  refine stepRunsTheDecodedInstruction s i hs hrun (fun a ha => ?_) ?_
  · rw [hnext] at ha
    simp only [List.mem_cons, List.not_mem_nil, or_false] at ha
    omega
  · have hmap : s.nextAddrs.map s.mem.byteAt = encode i ++ [] := by
      rw [hnext, List.append_nil]
      exact hbytes
    rw [hmap]
    exact decodeOfEncodeIsTheInstruction i []

end Sys2Proof.Machine
end

section
/-! SUPPORT. The registers of a machine whose `ip` is past the bytes it fetched, and what a register write leaves. -/

namespace Sys2Proof.Machine

variable {s : State}

/-- An advance changes `ip` and no other register (spec/10_state.md R18). -/
theorem reg_advance (n j : Nat) :
    (s.advance n).reg j = if j = 0 then trunc16 (s.ip.toNat + n) else s.reg j := reg_withReg _ _ _ _

theorem reg_withReg_self (s : State) (i : Nat) (v : Word) : (s.withReg i v).reg i = v := by
  rw [reg_withReg, if_pos rfl]

theorem frameExcept_withReg (s : State) (i : Nat) (v : Word) : FrameExcept [i] s (s.withReg i v) :=
  (FrameExcept.refl [i] s).withReg (List.mem_singleton_self i) v

theorem frameExcept_withStatus (s : State) (st : Status) : FrameExcept [] s (s.withStatus st) :=
  (FrameExcept.refl [] s).withStatus st

end Sys2Proof.Machine
end

section
/-! The statements of spec/41_move_literal.md and spec/42_add.md about the meanings. -/

namespace Sys2Proof.Machine

/-- Settles O28: the meaning is one register write. -/
theorem execMovLitR1CompletesAndWritesOnlyR1 : Obligations.ExecMovLitR1CompletesAndWritesOnlyR1 :=
  fun lit s hs =>
    ⟨_, exec_movLitR1 hs lit, reg_withReg_self s 2 lit, withReg_status s 2 lit, frameExcept_withReg s 2 lit⟩

/-- Settles O29: the meaning is one register write. -/
theorem execMovLitR2CompletesAndWritesOnlyR2 : Obligations.ExecMovLitR2CompletesAndWritesOnlyR2 :=
  fun lit s hs =>
    ⟨_, exec_movLitR2 hs lit, reg_withReg_self s 3 lit, withReg_status s 3 lit, frameExcept_withReg s 3 lit⟩

/-- Settles O30: on two legal indices the meaning is one write of `acc`. -/
theorem execAddRegRegCompletesAndWritesOnlyAcc : Obligations.ExecAddRegRegCompletesAndWritesOnlyAcc := by
  intro ra rb s hs ha hb
  refine ⟨_, exec_addRegReg_ok hs ha hb, ?_, withReg_status _ _ _, frameExcept_withReg s 1 _⟩
  rw [reg_withReg_self, addWrap_toNat]

/-- Settles O31: the indices are checked in their order, and a fault sets the status alone. -/
theorem execAddRegRegFaultsOnTheFirstBadIndex : Obligations.ExecAddRegRegFaultsOnTheFirstBadIndex :=
  fun _ _ s hs =>
    ⟨fun ha => ⟨_, exec_addRegReg_bad_first ha, withStatus_status _ _, frameExcept_withStatus s _⟩,
      fun ha hb => ⟨_, exec_addRegReg_bad_second hs ha hb, withStatus_status _ _, frameExcept_withStatus s _⟩⟩

/-- Settles O32: the laws of the sum of words, in what the instruction writes. -/
theorem addIsCommutativeWithZeroAndDoubles : Obligations.AddIsCommutativeWithZeroAndDoubles := by
  intro ra rb s hs ha hb
  refine ⟨?_, fun hzero => ⟨_, exec_addRegReg_ok hs ha hb, ?_⟩, _, exec_addRegReg_ok hs ha ha, ?_⟩
  · rw [exec_addRegReg_ok hs ha hb, exec_addRegReg_ok hs hb ha, addWrap_eq_add, addWrap_eq_add, BitVec.add_comm]
  · rw [reg_withReg_self, hzero, addWrap_eq_add, BitVec.add_zero]
  · rw [reg_withReg_self, addWrap_toNat, Nat.two_mul]

/-- Settles O27: the instruction runs with `ip` past its bytes and every other register as it was. -/
theorem addReadsItsSourcesBeforeItWritesAcc : Obligations.AddReadsItsSourcesBeforeItWritesAcc := by
  intro s ra rb hs hrun hin hbytes ha hb
  have hd : decode (s.nextAddrs.map s.mem.byteAt) = .ok (.addRegReg ra rb, []) := by
    rw [hbytes]
    exact decode_of_opcodeOfByte_some (opcodeOfByte_byteOfOpcode .addRegReg) ra rb []
  have hstep : step s = exec (.addRegReg ra rb) (s.advance 3) := stepRunsTheDecodedInstruction s _ hs hrun hin hd
  refine ⟨_, hstep.trans (exec_addRegReg_ok (hs.advance 3) ha hb), hrun, ?_⟩
  rw [reg_withReg_self, addWrap_eq_add, reg_advance, reg_advance]

end Sys2Proof.Machine
end

section
/-! The statements about every step. -/

namespace Sys2Proof.Machine

/-- Settles O33: a step that ends running wrote one destination, which is not `ip`. -/
theorem everyCompletedStepAdvancesByThree : Obligations.EveryCompletedStepAdvancesByThree := by
  intro s t hs h hrun
  rcases step_cases hs (running_of_step_next h) with ⟨d, v, hd, -, hst⟩ | ⟨c, k, -, hst, -⟩
  · cases hst.symm.trans h
    rw [ip_withReg, if_neg (Nat.ne_of_gt hd), advance_ip]
  · cases hst.symm.trans h
    cases hrun

/-- Settles O34: a step advances `ip`, and writes one destination below 4 or the status. -/
theorem noStepWritesMemoryOrTheUpperRegisters : Obligations.NoStepWritesMemoryOrTheUpperRegisters := by
  intro s t hs h
  have hframe : t.mem = s.mem ∧ ∃ d, d < 4 ∧ FrameExcept [0, d] s t := by
    rcases step_cases hs (running_of_step_next h) with ⟨d, v, -, hd, hst⟩ | ⟨c, k, -, hst, -⟩
    · cases hst.symm.trans h
      exact ⟨rfl, d, hd, ((FrameExcept.refl [0, d] s).withReg (by simp) _).withReg (by simp) v⟩
    · cases hst.symm.trans h
      exact ⟨rfl, 0, by decide, ((FrameExcept.refl [0, 0] s).withReg (by simp) _).withStatus _⟩
  obtain ⟨hmem, d, hd, hrest⟩ := hframe
  refine ⟨hmem, fun j hj => ?_, d, hd, hrest⟩
  obtain ⟨-, -, -, -, hreg⟩ := hrest
  refine hreg j fun hmem => ?_
  simp only [List.mem_cons, List.not_mem_nil, or_false] at hmem
  omega

/-- Settles O35: a step that ends faulted advanced `ip` past the bytes it fetched and set the status. -/
theorem aFaultingStepWritesNoDestination : Obligations.AFaultingStepWritesNoDestination := by
  intro s t c hs h hc
  have hrun := running_of_step_next h
  rcases step_cases hs hrun with ⟨d, v, -, -, hst⟩ | ⟨c', k, hk, hst, -⟩
  · cases hst.symm.trans h
    cases hrun.symm.trans hc
  · cases hst.symm.trans h
    exact ⟨k, hk, advance_ip k, (advance_frame k).withStatus _⟩

end Sys2Proof.Machine
end

section
/-! SUPPORT. A step ends in one way only: what is known of its next state holds of the state it gave. -/

namespace Sys2Proof.Machine

variable {s t : State} {c c' : Cause} {P : State → Prop}

theorem cause_eq_of_step (h : step s = .next t) (hc : t.status = .faulted c)
    (hfault : ∃ u, step s = .next u ∧ u.status = .faulted c' ∧ P u) : c = c' := by
  obtain ⟨u, hu, hcu, -⟩ := hfault
  cases h.symm.trans hu
  cases hc.symm.trans hcu
  rfl

theorem not_running_of_step (h : step s = .next t) (hc : t.status = .faulted c) :
    ¬ ∃ u, step s = .next u ∧ u.status = .running ∧ P u := by
  rintro ⟨u, hu, hrun, -⟩
  cases h.symm.trans hu
  cases hc.symm.trans hrun

end Sys2Proof.Machine
end

section
/-! The statement of spec/60_exceptions.md section 1: which step raises which fault. -/

namespace Sys2Proof.Machine

/-- Settles O36: along the opcode at `ip`, each fault is the one that the whole-step statement of that opcode names. -/
theorem theFaultsOfAStepAreTheListedOnes : Obligations.TheFaultsOfAStepAreTheListedOnes := by
  intro s t c hs h hc b d
  have hrun := running_of_step_next h
  rcases Nat.lt_or_ge s.ip.toNat s.memSize with hi | ho
  case inr => exact .inl ⟨ho, cause_eq_of_step h hc (step_faults_at_opcode_fetch hs hrun ho)⟩
  cases hop : opcodeOfByte s.opcodeByte with
  | none =>
    exact .inr (.inr (.inr ⟨hi, opcodeOfByte_eq_none_iff.1 hop, cause_eq_of_step h hc
      (step_faults_after_fetches (step_illegal hs hrun hi hop))⟩))
  | some o =>
    have hopc := byteOfOpcode_of_opcodeOfByte hop
    cases o with
    | movLitR1 =>
      obtain ⟨-, hfault, hok⟩ := stepOfMovLitR1LoadsR1OrFaults s hs hrun
      have hb : s.memSize ≤ b + 1 := Nat.not_lt.1 fun hlt => not_running_of_step h hc (hok hi hopc hlt)
      exact .inr (.inl ⟨hi, by rw [hopc]; decide, hb, cause_eq_of_step h hc (hfault hi hopc hb)⟩)
    | movLitR2 =>
      obtain ⟨-, hfault, hok⟩ := stepOfMovLitR2LoadsR2OrFaults s hs hrun
      have hb : s.memSize ≤ b + 1 := Nat.not_lt.1 fun hlt => not_running_of_step h hc (hok hi hopc hlt)
      exact .inr (.inl ⟨hi, by rw [hopc]; decide, hb, cause_eq_of_step h hc (hfault hi hopc hb)⟩)
    | addRegReg =>
      obtain ⟨-, hfirst, hsecond, hra, hrb, hok⟩ := stepOfAddRegRegSumsOrFaults s hs hrun
      refine .inr (.inr (.inl ⟨hi, hopc, ?_⟩))
      rcases Nat.lt_or_ge b s.memSize with h1 | h1
      case inr => exact .inl ⟨h1, cause_eq_of_step h hc (hfirst hi hopc h1)⟩
      rcases Nat.lt_or_ge d s.memSize with h2 | h2
      case inr => exact .inr (.inl ⟨h1, h2, cause_eq_of_step h hc (hsecond hi hopc h1 h2)⟩)
      rcases Nat.lt_or_ge (s.mem.byteAt b).toNat s.nreg with ha | ha
      case inr => exact .inr (.inr (.inl ⟨h1, h2, ha, cause_eq_of_step h hc (hra hi hopc h1 h2 ha)⟩))
      have hbad : s.nreg ≤ (s.mem.byteAt d).toNat :=
        Nat.not_lt.1 fun hlt => not_running_of_step h hc (hok hi hopc h1 h2 ha hlt)
      exact .inr (.inr (.inr ⟨h1, h2, ha, hbad, cause_eq_of_step h hc (hrb hi hopc h1 h2 ha hbad)⟩))

end Sys2Proof.Machine
end

section
/-! SUPPORT. Isolation (spec/70_reset_and_hazards.md section 5): two machines that differ in what an instruction does
not read are taken by it to states that agree. -/

namespace Sys2Proof.Machine

variable {s s' : State} {i : Instr} {d : Nat}

/-- Both outcomes are next states with the same status and `ip` and, when they run, the same value in register `d`. -/
def OutcomesAgree (d : Nat) (x x' : Host.Outcome State Fault Refusal) : Prop :=
  ∃ t t', x = .next t ∧ x' = .next t' ∧ t'.status = t.status ∧ t'.ip = t.ip ∧
    (t.status = .running → t'.reg d = t.reg d)

theorem outcomesAgree_withReg (hst : s'.status = s.status) (hip : s'.ip = s.ip) (d : Nat) (v : Word) :
    OutcomesAgree d (.next (s.withReg d v)) (.next (s'.withReg d v)) :=
  ⟨_, _, rfl, rfl, hst, by rw [ip_withReg, ip_withReg, hip], fun _ => by rw [reg_withReg_self, reg_withReg_self]⟩

/-- Two machines that take the same fault at the same `ip` agree: there is no destination to compare. -/
theorem outcomesAgree_faulted (hip : s'.ip = s.ip) (d : Nat) (c : Cause) :
    OutcomesAgree d (.next (s.withStatus (.faulted c))) (.next (s'.withStatus (.faulted c))) :=
  ⟨_, _, rfl, rfl, rfl, hip, fun hrun => by cases hrun⟩

/-- A meaning reads NGPR and the registers that it names, and no other part of the state. -/
theorem exec_agree (h : s.Inv) (h' : s'.Inv) (hngpr : s'.ngpr = s.ngpr) (hst : s'.status = s.status)
    (hip : s'.ip = s.ip)
    (hsrc : ∀ ra rb, i = .addRegReg ra rb → s'.reg ra.toNat = s.reg ra.toNat ∧ s'.reg rb.toNat = s.reg rb.toNat) :
    OutcomesAgree (destIndex (opcodeOf i)) (exec i s) (exec i s') := by
  cases i with
  | movLitR1 lit =>
    rw [exec_movLitR1 h, exec_movLitR1 h']
    exact outcomesAgree_withReg hst hip r1Index lit
  | movLitR2 lit =>
    rw [exec_movLitR2 h, exec_movLitR2 h']
    exact outcomesAgree_withReg hst hip r2Index lit
  | addRegReg ra rb =>
    obtain ⟨hra, hrb⟩ := hsrc ra rb rfl
    have hnreg : s'.nreg = s.nreg := congrArg Config.nregOf hngpr
    rcases Nat.lt_or_ge ra.toNat s.nreg with ha | ha
    case inr =>
      rw [exec_addRegReg_bad_first ha, exec_addRegReg_bad_first (hnreg ▸ ha)]
      exact outcomesAgree_faulted hip _ _
    rcases Nat.lt_or_ge rb.toNat s.nreg with hb | hb
    case inr =>
      rw [exec_addRegReg_bad_second h ha hb, exec_addRegReg_bad_second h' (hnreg ▸ ha) (hnreg ▸ hb)]
      exact outcomesAgree_faulted hip _ _
    rw [exec_addRegReg_ok h ha hb, exec_addRegReg_ok h' (hnreg ▸ ha) (hnreg ▸ hb), hra, hrb]
    exact outcomesAgree_withReg hst hip accIndex _

theorem reg_advance_congr {j : Nat} (hip : s'.ip = s.ip) (hj : s'.reg j = s.reg j) (n : Nat) :
    (s'.advance n).reg j = (s.advance n).reg j := by
  rw [reg_advance, reg_advance, hip, hj]

theorem ip_advance_congr (hip : s'.ip = s.ip) (n : Nat) : (s'.advance n).ip = (s.advance n).ip := by
  rw [advance_ip, advance_ip, hip]

end Sys2Proof.Machine
end

section
/-! The statement of isolation. -/

namespace Sys2Proof.Machine

/-- Settles O37: both machines fetch the same instruction, or the same reserved opcode from the same address, and a
meaning reads only what the two agree on. -/
theorem aStepDependsOnlyOnItsOwnBytesAndOperands : Obligations.AStepDependsOnlyOnItsOwnBytesAndOperands := by
  intro s s' hs hs' hrun hrun' hngpr hip hbytes hsrc
  obtain ⟨hi, hi', hfirst⟩ := hbytes _ (ip_mem_nextAddrs s)
  have hopc : s'.opcodeByte = s.opcodeByte := by rw [State.opcodeByte, hip, hfirst, State.opcodeByte]
  cases hop : opcodeOfByte s.opcodeByte with
  | none =>
    have hstep := step_illegal hs hrun hi hop
    have hstep' := step_illegal hs' hrun' (by rwa [hip]) (by rwa [hopc])
    rw [hopc, hip] at hstep'
    exact ⟨_, _, hstep, hstep', rfl, ip_advance_congr hip 1, fun o ho => by cases ho⟩
  | some o =>
    have hnext : s'.nextAddrs = s.nextAddrs := by rw [State.nextAddrs, hopc, hip, State.nextAddrs]
    have hin : ∀ a ∈ s.nextAddrs, a < s.memSize := fun a ha => (hbytes a ha).1
    have hin' : ∀ a ∈ s'.nextAddrs, a < s'.memSize := fun a ha => (hbytes a (hnext ▸ ha)).2.1
    have hmap : s'.nextAddrs.map s'.mem.byteAt = s.nextAddrs.map s.mem.byteAt := by
      rw [hnext]
      exact List.map_congr_left fun a ha => (hbytes a ha).2.2
    obtain ⟨b, c, hthree, -⟩ := fetchInstr_withOperands hs hin hop
    have hd : decode (s.nextAddrs.map s.mem.byteAt) = .ok (o.withOperands b c, []) := by
      rw [hthree, decode_of_opcodeOfByte_some hop]
    have hstep := stepRunsTheDecodedInstruction s _ hs hrun hin hd
    have hstep' := stepRunsTheDecodedInstruction s' _ hs' hrun' hin' (hmap ▸ hd)
    obtain ⟨t, t', ht, ht', hstatus, hipt, hdest⟩ :=
      exec_agree (i := o.withOperands b c) (hs.advance 3) (hs'.advance 3) hngpr (hrun'.trans hrun.symm)
        (ip_advance_congr hip 3) fun ra rb hadd => by
          obtain ⟨hra, hrb⟩ := hsrc ra rb (hadd ▸ hd)
          exact ⟨reg_advance_congr hip hra 3, reg_advance_congr hip hrb 3⟩
    refine ⟨t, t', hstep.trans ht, hstep'.trans ht', hstatus, hipt, fun o' ho' => ?_⟩
    cases ho'
    rwa [opcodeOf_withOperands] at hdest

end Sys2Proof.Machine
end

section
/-! SUPPORT. Runs (spec/40_fetch_decode.md R77) by their first step, and the replies to a step transaction
(spec/43_host_interface.md R93). -/

namespace Sys2Proof.Machine

variable {s t : State} {c : Cause}

/-- A running machine always gives a next state: one of `step_cases`. -/
theorem exists_step_next (h : s.Inv) (hs : s.status = .running) : ∃ t, step s = .next t := by
  rcases step_cases h hs with ⟨_, _, -, -, hst⟩ | ⟨_, _, -, hst, -⟩
  · exact ⟨_, hst⟩
  · exact ⟨_, hst⟩

theorem runOf_succ (h : step s = .next t) (n : Nat) : runOf (n + 1) s = runOf n t := by rw [runOf, h]

theorem completes_succ (h : step s = .next t) (n : Nat) :
    completes (n + 1) s = true ↔ t.status = .running ∧ completes n t = true := by
  rw [completes, h]
  simp only [Bool.and_eq_true, decide_eq_true_eq]

/-- A run that ends running began running: a fault is for ever (R108). -/
theorem running_of_runOf_running {n : Nat} (h : (runOf n s).status = .running) : s.status = .running := by
  cases hs : s.status with
  | running => rfl
  | faulted c => rw [runOf_faulted hs, hs] at h; cases h

theorem runOf_inv (n : Nat) (h : s.Inv) : (runOf n s).Inv := by
  induction n generalizing s with
  | zero => exact h
  | succ n ih =>
    cases hs : s.status with
    | faulted c => rwa [runOf_faulted hs]
    | running =>
      obtain ⟨t, ht⟩ := exists_step_next h hs
      rw [runOf_succ ht]
      exact ih (everyStepKeepsTheInvariant s t h ht)

theorem completes_iff_runOf_running (n : Nat) (h : s.Inv) :
    completes n s = true ↔ (runOf n s).status = .running := by
  induction n generalizing s with
  | zero => exact decide_eq_true_iff
  | succ n ih =>
    cases hs : s.status with
    | faulted c => simp [completes_faulted hs, runOf_faulted hs, hs]
    | running =>
      obtain ⟨t, ht⟩ := exists_step_next h hs
      rw [completes_succ ht, runOf_succ ht, ih (everyStepKeepsTheInvariant s t h ht)]
      exact ⟨And.right, fun hend => ⟨running_of_runOf_running hend, hend⟩⟩

theorem runOf_add (m n : Nat) (h : s.Inv) : runOf (m + n) s = runOf n (runOf m s) := by
  induction m generalizing s with
  | zero => rw [Nat.zero_add, runOf]
  | succ m ih =>
    cases hs : s.status with
    | faulted c => rw [runOf_faulted hs, runOf_faulted hs, runOf_faulted hs]
    | running =>
      obtain ⟨t, ht⟩ := exists_step_next h hs
      rw [Nat.succ_add, runOf_succ ht, runOf_succ ht, ih (everyStepKeepsTheInvariant s t h ht)]

/-- The reply to a step transaction that stepped follows from the status it leaves. -/
theorem hostDo_step_next (h : step s = .next t) : hostDo .step s = some (t, stepReply t) := by
  rw [hostDo, hostStep, h]

theorem stepReply_running (ht : t.status = .running) : stepReply t = .completed := by rw [stepReply, ht]

theorem stepReply_faulted (ht : t.status = .faulted c) : stepReply t = .faulted c := by rw [stepReply, ht]

end Sys2Proof.Machine
end

section
/-! The statements about running machines, runs and step transactions, and the fault codes. -/

namespace Sys2Proof.Machine

/-- Settles O43: a faulted machine refuses, and a running one gives a next state. -/
theorem aRunningMachineAlwaysSteps : Obligations.ARunningMachineAlwaysSteps := by
  intro s hs
  refine ⟨fun f hf => ?_, exists_step_next hs⟩
  cases hst : s.status with
  | faulted c => cases (step_faulted hst).symm.trans hf
  | running =>
    obtain ⟨t, ht⟩ := exists_step_next hs hst
    cases ht.symm.trans hf

/-- Settles O44: each part by induction on the number of steps, along the first step. -/
theorem runsCompleteExactlyWhenTheyEndRunning : Obligations.RunsCompleteExactlyWhenTheyEndRunning :=
  fun m n _ hs => ⟨completes_iff_runOf_running n hs, runOf_add m n hs, runOf_inv n hs⟩

/-- Settles O53: the reply follows the status that the step leaves, or the refusal. -/
theorem aStepTransactionSaysHowItEnded : Obligations.AStepTransactionSaysHowItEnded := by
  intro s hs
  refine ⟨fun t h ht => ?_, fun t c h hc => ?_, fun c hc => hostStep_faulted hc, ?_⟩
  · rw [hostDo_step_next h, stepReply_running ht]
  · rw [hostDo_step_next h, stepReply_faulted hc]
  · cases hst : s.status with
    | faulted c => exact ⟨_, _, hostStep_faulted hst⟩
    | running =>
      obtain ⟨t, ht⟩ := exists_step_next hs hst
      exact ⟨_, _, hostDo_step_next ht⟩

/-- Settles O39: the code of each cause is its row of the table, and none of the four is 0. -/
theorem faultCodesAreTheTables : Obligations.FaultCodesAreTheTables := by
  refine ⟨fun st => ?_, fun _ _ _ _ _ _ _ => ⟨rfl, rfl, rfl, rfl⟩⟩
  cases st with
  | running => simp [faultCode]
  | faulted c => cases c <;> simp [faultCode]

end Sys2Proof.Machine
end

section
/-! SUPPORT. The first fetch on memory that holds 0x00, and the machine at power-on. -/

namespace Sys2Proof.Machine

variable {s : State}

/-- A step that meets a zero byte at `ip` takes the illegal-opcode fault: 0x00 is reserved (spec/30_encoding.md R58). -/
theorem step_zero_byte (h : s.Inv) (hs : s.status = .running) (hi : s.ip.toNat < s.memSize)
    (hzero : s.mem.byteAt s.ip.toNat = 0#8) :
    ∃ t, step s = .next t ∧ t.status = .faulted (.illegalOpcode 0#8 s.ip) ∧ t.ip = trunc16 (s.ip.toNat + 1) ∧
      FrameExcept [0] s t := by
  have hopc : s.opcodeByte = 0#8 := hzero
  have hstep := step_illegal h hs hi (by rw [hopc]; decide)
  rw [hopc] at hstep
  exact step_faults_after_fetches hstep

theorem ip_powerOn (ngpr memSize : Nat) : (State.powerOn ngpr memSize).ip = 0#16 := ip_construct _ _

end Sys2Proof.Machine
end

section
/-! The statements of spec/70_reset_and_hazards.md section 2 and spec/20_memory.md section 9: what the first fetch after
a host's action finds. -/

namespace Sys2Proof.Machine

/-- Settles O47: at power-on `ip` is 0 and every byte of MEM is 0. -/
theorem anEmptyMachineFaultsAtItsFirstStep : Obligations.AnEmptyMachineFaultsAtItsFirstStep := by
  intro ngpr memSize hn
  have hs := inv_powerOn memSize hn
  have hip := ip_powerOn ngpr memSize
  refine ⟨fun hmem => ?_, fun hmem => ?_⟩
  · have hi : (State.powerOn ngpr memSize).ip.toNat < (State.powerOn ngpr memSize).memSize := by
      rw [hip]
      exact hmem
    obtain ⟨t, hstep, hc, hipt, -⟩ := step_zero_byte hs rfl hi (Memory.byteAt_create _ _)
    rw [hip] at hc hipt
    exact ⟨t, hstep, hc, hipt⟩
  · have ho : (State.powerOn ngpr memSize).memSize ≤ (State.powerOn ngpr memSize).ip.toNat := by
      rw [hip]
      exact hmem.le
    obtain ⟨t, hstep, hc, hframe⟩ := step_faults_at_opcode_fetch hs rfl ho
    obtain ⟨-, -, -, -, hreg⟩ := hframe
    rw [hip] at hc
    exact ⟨t, hstep, hc, (hreg 0 List.not_mem_nil).trans hip⟩

/-- Settles O48: `ip` stands at the byte after the program, which is 0 or outside MEM. -/
theorem steppingPastTheProgramFaults : Obligations.SteppingPastTheProgramFaults := by
  intro s p hs hrun hzero hip
  rw [← hip]
  refine ⟨fun hi => step_zero_byte hs hrun hi (hzero _ hi (.inr ?_)), step_faults_at_opcode_fetch hs hrun⟩
  omega

/-- Settles O50: a preload leaves `ip` where it was, and the byte it wrote is the one fetched there. -/
theorem aFetchSeesAPreloadedByte : Obligations.AFetchSeesAPreloadedByte := by
  intro s b hs hi
  have hin : (s.withMem (s.mem.poke s.ip.toNat b)).ip.toNat < (s.withMem (s.mem.poke s.ip.toNat b)).memSize := hi
  have hfetch := fetch_ok (hs.preload hi b) hin
  rw [withMem_mem, withMem_ip, Memory.byteAt_poke, if_pos rfl] at hfetch
  exact ⟨_, _, hostDo_preload_inside hi, hfetch, advance_ip 1⟩

end Sys2Proof.Machine
end
